-- ==== Sys2Proof/Word.lean ====
section
/-! DEFINITION. The byte, the only word of the core (spec/00_scope.md R6 and R8: XLEN = AW = 8, unsigned). -/

namespace Sys2Proof

/-- A byte: 8 bits, numbered 7 (most significant) to 0 (R8). Registers, memory bytes, addresses, `pc`, `sp` and
`flags` are all bytes, and `+` and `-` on them are the spec's `+8` and `-8` (modulo 256). -/
abbrev Byte := BitVec 8

end Sys2Proof
end

