-- ==== Sys2Proof/Config.lean ====
section
/-! DEFINITION. What is fixed for the machine: the parameters of spec/00_scope.md R6 (settled) and R7 (left to the
model as arguments). -/

namespace Sys2Proof

/-- FLAG_MODE (R7, 92_eei_decisions.md D1): whether ZERO and NEGATIVE follow the reference's operand-sourced quirk in
MV, AND, OR, XOR and MUL, or always the computed or moved value. -/
inductive FlagMode where
  | reference
  | corrected
deriving DecidableEq, Repr

/-- RA0_READ (R7, 92_eei_decisions.md D2): in REFERENCE mode, when the first operand of AND, OR, XOR or MUL is R0,
whether the flag source is R0's value before or after the result is written to it. -/
inductive Ra0Read where
  | beforeWrite
  | afterWrite
deriving DecidableEq, Repr

/-- The two parameters R7 leaves "to the model as arguments". DESIGN CHOICE (notes/assumptions/2.md): they are carried
in `State`, the one argument of a step, so that every statement about all states covers all their values. -/
structure Params where
  flagMode : FlagMode
  ra0Read : Ra0Read
deriving DecidableEq, Repr

/-- This spec's values: REFERENCE and BEFORE_WRITE (R7, D1, D2). -/
def Params.spec : Params := { flagMode := .reference, ra0Read := .beforeWrite }

/-- NREG, the number of general registers (R6). -/
abbrev Config.nreg : Nat := 8

/-- MEMSIZE, the bytes of memory (R6). -/
abbrev Config.memSize : Nat := 256

/-- PC_RESET (R6). -/
def Config.pcReset : Byte := 0x00#8

/-- SP_RESET (R6). -/
def Config.spReset : Byte := 0xF0#8

/-- LOAD_BASE, the address of the first image byte (R6). -/
def Config.loadBase : Byte := 0x00#8

/-- The length in bytes of the longest instruction (R6, spec/30_encoding.md R45). -/
abbrev Config.maxInstrLength : Nat := 3

end Sys2Proof
end

