-- ==== Sys2Proof/Machine/State.lean ====
section
/-! DEFINITION. The state of the core as plain data (spec/10_state.md), the state after reset
(spec/70_reset_and_hazards.md R99), and the reasons a step or a load can stop. -/

namespace Sys2Proof.Machine

/-- A register index in 0..7 (spec/10_state.md R13, R15). -/
abbrev RegIdx := Fin Config.nreg

/-- Memory as (address, byte) pairs in canonical form: addresses strictly rising and below 256, no pair whose byte is
`unlistedByte` (`Memory.wf` in Ops.lean says so). -/
abbrev Memory := List Host.Cell

/-- What an address that is not listed reads as: the reset contents 0x00 (R26, R44). -/
def unlistedByte : Byte := 0x00#8

/-- The run status (R27). -/
inductive Status where
  | running
  | halted
  | faulted
deriving DecidableEq, Repr

/-- The cause of the end of a run (spec/60_exceptions.md R84); `Cause.code` in Ops.lean gives the numbers. -/
inductive Cause where
  | none
  | haltOpcode
  | unrecognizedOpcode
  | invalidRegisterIndex
deriving DecidableEq, Repr

/-- The whole state of the core (R13 to R28), and the parameters the model carries with it. -/
structure State where
  /-- R0..R7 (R13). -/
  regs : Vector Byte 8
  /-- The program counter (R16): between steps, the address of the next opcode byte. -/
  pc : Byte
  /-- The stack pointer (R18): the address of the most recently pushed byte. -/
  sp : Byte
  /-- The flags byte (R19): ZERO 0x80, CARRY 0x40, OVERFLOW 0x20, NEGATIVE 0x10, bits 3:0 unused. -/
  flags : Byte
  /-- The 256-byte memory, code and stack together (R26). -/
  mem : Memory
  /-- The run status (R27). -/
  status : Status
  /-- The cause code of the end of the run (R27, R84). -/
  cause : Cause
  /-- `cause_pc`: the address of the opcode byte of the instruction that ended the run (R27); any value while RUNNING. -/
  causePc : Byte
  /-- The MODEL's own field: FLAG_MODE and RA0_READ (spec/00_scope.md R7). No instruction writes it. -/
  params : Params
deriving DecidableEq, Repr

/-- Why a step does not exist. The spec gives the running core no step that stops without a next state (R89). -/
inductive Fault where
  /-- `step` on a HALTED core: no step exists until reset (spec/40_engine.md R59, spec/60_exceptions.md R92). Safe: the
  model has no run past a halt. -/
  | haltedHasNoStep
  /-- `step` on a FAULTED core: no step exists until reset (R59, R92), and the run it ends is no successful one (R90).
  Safe: the model has no run past a fault. -/
  | faultedHasNoStep
deriving DecidableEq, Repr

/-- What the model has no run for. -/
inductive Refusal where
  /-- An instruction whose arm of `exec` gives no meaning yet. No arm raises it: every instruction has its meaning. -/
  | notModelled (mnemonic : String)
  /-- `boot` with an image longer than 256 bytes: refused, not loaded (spec/70_reset_and_hazards.md R100,
  92_eei_decisions.md D8). Safe: the model has no run where the reference might have one. -/
  | imageTooLong (length : Nat)
deriving DecidableEq, Repr

/-- The state right after reset (spec/70_reset_and_hazards.md R99) of a machine with the given parameters. `causePc` is
unspecified by R99: DESIGN CHOICE 0x00 (notes/assumptions/1.md). -/
def State.resetWith (p : Params) : State :=
  { regs := Vector.replicate 8 0x00#8
    pc := Config.pcReset
    sp := Config.spReset
    flags := 0x00#8
    mem := []
    status := .running
    cause := .none
    causePc := 0x00#8
    params := p }

/-- The state right after reset, with this spec's parameter values (R99, R7). -/
def State.reset : State := State.resetWith Params.spec

end Sys2Proof.Machine
end

