-- ==== Sys2Proof/Machine/Flags.lean ====
section
/-! DEFINITION. The flags byte and every flag computation (spec/10_state.md R19 to R24, spec/41_move.md R66). -/

namespace Sys2Proof.Machine

/-- The four named flags (R19). -/
inductive Flag where
  | zero
  | carry
  | overflow
  | negative
deriving DecidableEq, Repr

/-- The mask of a flag in the flags byte (R19). -/
def Flag.mask : Flag → Byte
  | .zero => 0x80#8
  | .carry => 0x40#8
  | .overflow => 0x20#8
  | .negative => 0x10#8

/-- `F.X` of a flags byte (spec/00_scope.md R9). -/
def flagBit (x : Flag) (f : Byte) : Bool := decide (f &&& x.mask ≠ 0)

/-- `F.X <- b` on a flags byte: every other bit is kept (R9). -/
def writeFlag (x : Flag) (b : Bool) (f : Byte) : Byte := if b then f ||| x.mask else f &&& ~~~x.mask

/-- `SetZN(v)`: ZERO iff `v` is 0, NEGATIVE is bit 7 of `v`; CARRY, OVERFLOW and bits 3:0 kept (R21). -/
def setZN (v f : Byte) : Byte := writeFlag .negative v.msb (writeFlag .zero (decide (v = 0)) f)

/-- `QuirkSrc(ra, a, res)`: the byte handed to `SetZN` by AND, OR, XOR and MUL (R22). -/
def quirkSrc (p : Params) (ra : RegIdx) (a res : Byte) : Byte :=
  match p.flagMode with
  | .corrected => res
  | .reference => if ra = 0 ∧ p.ra0Read = .afterWrite then res else a

/-- The byte MV hands to `SetZN`: the source operand byte itself in REFERENCE mode, the moved value in CORRECTED mode
(spec/41_move.md R66). -/
def moveSrc (p : Params) (srcReg v : Byte) : Byte :=
  match p.flagMode with
  | .reference => srcReg
  | .corrected => v

/-- CARRY after ADD: the addition wrapped (R23, spec/42_arith.md R67). -/
def addCarry (a b : Byte) : Bool := decide (255 < a.toNat + b.toNat)

/-- CARRY after SUB: the subtraction borrowed (R23, spec/42_arith.md R68). -/
def subBorrow (a b : Byte) : Bool := decide (a.toNat < b.toNat)

/-- OVERFLOW after MUL: the 16-bit product exceeds 255 (R24, spec/42_arith.md R69). -/
def mulOverflow (a b : Byte) : Bool := decide (255 < a.toNat * b.toNat)

end Sys2Proof.Machine
end

