-- ==== Sys2Proof/Syntax.lean ====
section
/-! DEFINITION. The instructions: one constructor for each of the 18 rows of spec/opcode_table.json
(spec/30_encoding.md R47). Every operand is the whole operand byte (R50, R51, R52): a register operand of 8 or more is
a legal encoding whose execution raises InvalidRegisterIndex (spec/60_exceptions.md R88), and MV uses its source
operand byte itself as a flag source (spec/41_move.md R66). -/

namespace Sys2Proof

/-- An instruction with its operand bytes, in the order of spec/30_encoding.md R46. -/
inductive Instr where
  | nop
  | halt
  | ldi (reg imm8 : Byte)
  | mv (destReg srcReg : Byte)
  | add (ra rb : Byte)
  | sub (ra rb : Byte)
  | mul (ra rb : Byte)
  | div (ra rb : Byte)
  | and (ra rb : Byte)
  | or (ra rb : Byte)
  | xor (ra rb : Byte)
  | shl (ra : Byte)
  | shr (ra : Byte)
  | push (ra : Byte)
  | pop (ra : Byte)
  | jmp (addr : Byte)
  | jz (addr : Byte)
  | jnz (addr : Byte)
deriving DecidableEq, Repr

end Sys2Proof
end

