-- ==== Sys2Proof/Decode.lean ====
section
/-! DEFINITION. The decoder and the encoder (spec/30_encoding.md). The decoder is total on any bytes and rejects by
name; the encoder writes an instruction's bytes from the same table. -/

namespace Sys2Proof

/-- Why bytes are not an instruction. -/
inductive Reject where
  /-- The first byte is one of the 238 values of R54. Raised by `decode`; safe: the step then halts as R63 says. -/
  | unrecognizedOpcode (op : Byte)
  /-- There is no byte at all. Raised by `decode` on an empty list only; the engine never offers one. Safe. -/
  | noByte
  /-- The list ends before the operand bytes that `op` takes. Raised by `decode` on short lists only; the engine always
  offers as many bytes as the longest instruction has. Safe. -/
  | missingOperand (op : Byte)
deriving DecidableEq, Repr

/-- What the decoder answers. -/
inductive Decoded where
  | instr (i : Instr)
  | rejected (why : Reject)
deriving DecidableEq, Repr

/-- The operand byte of a 2-byte instruction (formats R and A, R46). -/
def takeOne (op : Byte) (make : Byte → Instr) : List Byte → Decoded
  | b1 :: _ => .instr (make b1)
  | [] => .rejected (.missingOperand op)

/-- The two operand bytes of a 3-byte instruction, in address order (formats RI and RR, R46, R49). -/
def takeTwo (op : Byte) (make : Byte → Byte → Instr) : List Byte → Decoded
  | b1 :: b2 :: _ => .instr (make b1 b2)
  | [_] => .rejected (.missingOperand op)
  | [] => .rejected (.missingOperand op)

/-- The instruction at the head of a list of bytes; the bytes after it are ignored. The opcode is matched on all 8 bits
(R47, R48). -/
def decode : List Byte → Decoded
  | [] => .rejected .noByte
  | op :: rest =>
    match op with
    | 0x00#8 => .instr .nop
    | 0x10#8 => .instr .halt
    | 0x14#8 => takeTwo op .ldi rest
    | 0x18#8 => takeTwo op .mv rest
    | 0x20#8 => takeTwo op .add rest
    | 0x30#8 => takeTwo op .sub rest
    | 0x40#8 => takeTwo op .mul rest
    | 0x50#8 => takeTwo op .div rest
    | 0x60#8 => takeTwo op .and rest
    | 0x70#8 => takeTwo op .or rest
    | 0x80#8 => takeTwo op .xor rest
    | 0x90#8 => takeOne op .shl rest
    | 0xA0#8 => takeOne op .shr rest
    | 0xB0#8 => takeOne op .push rest
    | 0xC0#8 => takeOne op .pop rest
    | 0xD0#8 => takeOne op .jmp rest
    | 0xE0#8 => takeOne op .jz rest
    | 0xF0#8 => takeOne op .jnz rest
    | _ => .rejected (.unrecognizedOpcode op)

/-- The bytes of an instruction: its opcode (R47), then its operand bytes in the order of R46. -/
def encode : Instr → List Byte
  | .nop => [0x00#8]
  | .halt => [0x10#8]
  | .ldi reg imm8 => [0x14#8, reg, imm8]
  | .mv destReg srcReg => [0x18#8, destReg, srcReg]
  | .add ra rb => [0x20#8, ra, rb]
  | .sub ra rb => [0x30#8, ra, rb]
  | .mul ra rb => [0x40#8, ra, rb]
  | .div ra rb => [0x50#8, ra, rb]
  | .and ra rb => [0x60#8, ra, rb]
  | .or ra rb => [0x70#8, ra, rb]
  | .xor ra rb => [0x80#8, ra, rb]
  | .shl ra => [0x90#8, ra]
  | .shr ra => [0xA0#8, ra]
  | .push ra => [0xB0#8, ra]
  | .pop ra => [0xC0#8, ra]
  | .jmp addr => [0xD0#8, addr]
  | .jz addr => [0xE0#8, addr]
  | .jnz addr => [0xF0#8, addr]

/-- The length of an instruction in bytes, decided by its opcode alone (R45). -/
def Instr.length : Instr → Nat
  | .nop => 1
  | .halt => 1
  | .ldi _ _ => 3
  | .mv _ _ => 3
  | .add _ _ => 3
  | .sub _ _ => 3
  | .mul _ _ => 3
  | .div _ _ => 3
  | .and _ _ => 3
  | .or _ _ => 3
  | .xor _ _ => 3
  | .shl _ => 2
  | .shr _ => 2
  | .push _ => 2
  | .pop _ => 2
  | .jmp _ => 2
  | .jz _ => 2
  | .jnz _ => 2

/-- The 18 assigned opcode bytes (R47). -/
def assignedOpcodes : List Byte :=
  [0x00#8, 0x10#8, 0x14#8, 0x18#8, 0x20#8, 0x30#8, 0x40#8, 0x50#8, 0x60#8, 0x70#8, 0x80#8, 0x90#8, 0xA0#8, 0xB0#8,
    0xC0#8, 0xD0#8, 0xE0#8, 0xF0#8]

/-- Byte `k` of an instruction whose first `nbits` bits are `w`, numbered as spec/opcode_table.json numbers them: bit 0
is the least significant bit of the first byte, byte `k` is bits 8k+7..8k; every bit from `nbits` on is 0. -/
def wordByte (nbits w k : Nat) : Byte := BitVec.ofNat 8 (w % 2 ^ nbits / 2 ^ (8 * k))

/-- The bytes of such an instruction in address order, as many as the longest instruction has. -/
def wordBytes (nbits w : Nat) : List Byte := (List.range Config.maxInstrLength).map (wordByte nbits w)

/-- The instruction the decoder reads from an instruction whose bits are `w` (numbered as for `wordByte`). -/
def decodeTableWord (nbits w : Nat) : Option Instr :=
  match decode (wordBytes nbits w) with
  | .instr i => some i
  | .rejected _ => none

end Sys2Proof
end

