-- ==== Sys2Proof/Machine/Ops.lean ====
section
/-! DEFINITION. The named operations over registers, memory, `pc`, `sp` and the status record
(spec/00_scope.md R9, spec/20_memory.md R35, spec/60_exceptions.md R84, R85, R91). -/

namespace Sys2Proof.Machine

/-! ### Memory -/

/-- The byte at address `a` of a canonical list (R35). -/
def Memory.get : Memory → Nat → Byte
  | [], _ => unlistedByte
  | (b, w) :: rest, a => if a = b then w else Memory.get rest a

/-- Stores `v` at address `a`, keeping the list canonical: writing `unlistedByte` removes the entry (R35). -/
def Memory.put : Memory → Nat → Byte → Memory
  | [], a, v => if v = unlistedByte then [] else [(a, v)]
  | (b, w) :: rest, a, v =>
    if a < b then (if v = unlistedByte then (b, w) :: rest else (a, v) :: (b, w) :: rest)
    else if a = b then (if v = unlistedByte then rest else (a, v) :: rest)
    else (b, w) :: Memory.put rest a v

/-- The list is canonical from address `lo` on: addresses strictly rising, none below `lo` or outside the 256-byte
space, no byte equal to what an unlisted address reads as. -/
def Memory.wfFrom : Nat → Memory → Bool
  | _, [] => true
  | lo, (b, w) :: rest =>
    decide (lo ≤ b) && decide (b < Config.memSize) && decide (w ≠ unlistedByte) && Memory.wfFrom (b + 1) rest

/-- The memory is in its one canonical form. -/
def Memory.wf (m : Memory) : Bool := Memory.wfFrom 0 m

/-- `MemRead(a, 1)` (R9, R35). No access faults (R34). -/
def State.readMem (a : Byte) (s : State) : Byte := s.mem.get a.toNat

/-- `MemWrite(a, 1, v)` (R9, R35). -/
def State.writeMem (a v : Byte) (s : State) : State := { s with mem := s.mem.put a.toNat v }

/-- Stores a list of bytes at `a`, `a +8 1`, … -/
def State.writeBytes : Byte → List Byte → State → State
  | _, [], s => s
  | a, b :: bs, s => State.writeBytes (a + 1) bs (s.writeMem a b)

/-! ### Registers, flags, pc, sp -/

/-- `x[r]` (R9, spec/10_state.md R13). -/
def State.reg (r : RegIdx) (s : State) : Byte := s.regs[r]

/-- `x[r] <- v` (R9). No register is hardwired (R13). -/
def State.setReg (r : RegIdx) (v : Byte) (s : State) : State := { s with regs := s.regs.set r v }

/-- `flags <- f`. -/
def State.setFlags (f : Byte) (s : State) : State := { s with flags := f }

/-- `pc <- a`. -/
def State.setPc (a : Byte) (s : State) : State := { s with pc := a }

/-- `sp <- a`. -/
def State.setSp (a : Byte) (s : State) : State := { s with sp := a }

/-- The `pc` past an instruction of `len` bytes: `pc <- A +8 len` (spec/10_state.md R17). -/
def State.advance (len : Nat) (s : State) : State := s.setPc (s.pc + BitVec.ofNat 8 len)

/-- The end of an instruction of `len` bytes that writes register `r` and the flags byte. -/
def State.writeBack (r : RegIdx) (v f : Byte) (len : Nat) (s : State) : State :=
  ((s.setReg r v).setFlags f).advance len

/-! ### Fetch -/

/-- `Fetch()`: the byte at `pc`, and the state with `pc` advanced by 1 modulo 256 (R9). -/
def State.fetch (s : State) : Byte × State := (s.readMem s.pc, s.advance 1)

/-- `n` fetches one after another (spec/30_encoding.md R49). -/
def State.fetchMany : Nat → State → List Byte × State
  | 0, s => ([], s)
  | n + 1, s => (s.fetch.1 :: (State.fetchMany n s.fetch.2).1, (State.fetchMany n s.fetch.2).2)

/-- The bytes the decoder is offered: as many as the longest instruction has, from `pc` on. It ignores those the
instruction does not have; a read has no side effect (spec/20_memory.md R37; notes/assumptions/3.md). -/
def State.instrBytes (s : State) : List Byte := (s.fetchMany Config.maxInstrLength).1

/-! ### The end of a run -/

/-- The cause codes (R84). -/
def Cause.code : Cause → Nat
  | .none => 0
  | .haltOpcode => 1
  | .unrecognizedOpcode => 2
  | .invalidRegisterIndex => 3

/-- The status and cause pairs of R84's table. -/
def statusRecordOk : Status → Cause → Bool
  | .running, c => decide (c = .none)
  | .halted, c => decide (c = .haltOpcode ∨ c = .unrecognizedOpcode)
  | .faulted, c => decide (c = .invalidRegisterIndex)

/-- The one operation that ends a run, for a halt and for a fault: the status record gets the status, the cause and the
address of the opcode byte, and `pc` passes the `len` bytes that were fetched (R85, R90, R91). There is no vector, no
saved state and no return (R91, R92). -/
def State.endRun (st : Status) (c : Cause) (len : Nat) (s : State) : State :=
  ({ s with status := st, cause := c, causePc := s.pc } : State).advance len

/-- `stop(c)` of an instruction whose only byte is its opcode (R85). -/
def State.stop (c : Cause) (s : State) : State := s.endRun .halted c 1

/-- `raise InvalidRegisterIndex` by an instruction of `len` bytes (R90, R91). -/
def State.raiseInvalidRegisterIndex (len : Nat) (s : State) : State := s.endRun .faulted .invalidRegisterIndex len

end Sys2Proof.Machine
end

