-- ==== Sys2Proof/Machine/Operands.lean ====
section
/-! DEFINITION. Register operands: `Reg(b)` of spec/00_scope.md R9 and the check of spec/60_exceptions.md R87.
Immediate and address operands are the operand byte itself (spec/30_encoding.md R51, R52) and need no operation. -/

namespace Sys2Proof.Machine

/-- `Reg(b)`: the register a byte names, if it is in 0..7 (R9, spec/10_state.md R15); no masking, wrapping or clamping
(spec/30_encoding.md R50). -/
def regIndex (b : Byte) : Option RegIdx := if h : b.toNat < Config.nreg then some ⟨b.toNat, h⟩ else none

/-- An instruction of `len` bytes with one register operand: the check first, then the effect `k` (R87). -/
def withReg (len : Nat) (b : Byte) (s : State) (k : RegIdx → State) : Host.Outcome State Fault Refusal :=
  match regIndex b with
  | some r => .next (k r)
  | none => .next (s.raiseInvalidRegisterIndex len)

/-- An instruction of `len` bytes with two register operands: both checks first, then the effect `k` (R87). Several
invalid operands raise one fault (R94). -/
def withRegs (len : Nat) (b1 b2 : Byte) (s : State) (k : RegIdx → RegIdx → State) :
    Host.Outcome State Fault Refusal :=
  match regIndex b1, regIndex b2 with
  | some r1, some r2 => .next (k r1 r2)
  | _, _ => .next (s.raiseInvalidRegisterIndex len)

end Sys2Proof.Machine
end

