-- ==== Sys2Proof/Machine/Arith.lean ====
section
/-! DEFINITION. Arithmetic: ADD, SUB, MUL, DIV (spec/42_arith.md R67 to R71). Operands are unsigned; the exact integer
result is narrowed to 8 bits at the end. Both operands are read before R0 is written. -/

namespace Sys2Proof.Machine

/-- `(a + b) mod 256` (R67). -/
def addResult (a b : Byte) : Byte := BitVec.ofNat 8 (a.toNat + b.toNat)

/-- `(a - b) mod 256` (R68). -/
def subResult (a b : Byte) : Byte := BitVec.ofInt 8 ((a.toNat : Int) - (b.toNat : Int))

/-- The low byte of the exact product (R69). -/
def mulResult (a b : Byte) : Byte := BitVec.ofNat 8 (a.toNat * b.toNat)

/-- The unsigned quotient rounded down, for `b` not 0 (R70, spec/00_scope.md R8). -/
def divResult (a b : Byte) : Byte := BitVec.ofNat 8 (a.toNat / b.toNat)

/-- ADD (R67). -/
def execAdd (ra rb : Byte) (s : State) : Host.Outcome State Fault Refusal :=
  withRegs 3 ra rb s fun i j =>
    let res := addResult (s.reg i) (s.reg j)
    s.writeBack 0 res (writeFlag .carry (addCarry (s.reg i) (s.reg j)) (setZN res s.flags)) 3

/-- SUB (R68). -/
def execSub (ra rb : Byte) (s : State) : Host.Outcome State Fault Refusal :=
  withRegs 3 ra rb s fun i j =>
    let res := subResult (s.reg i) (s.reg j)
    s.writeBack 0 res (writeFlag .carry (subBorrow (s.reg i) (s.reg j)) (setZN res s.flags)) 3

/-- MUL (R69): ZERO and NEGATIVE from `quirkSrc`. -/
def execMul (ra rb : Byte) (s : State) : Host.Outcome State Fault Refusal :=
  withRegs 3 ra rb s fun i j =>
    let res := mulResult (s.reg i) (s.reg j)
    let src := quirkSrc s.params i (s.reg i) res
    s.writeBack 0 res (writeFlag .overflow (mulOverflow (s.reg i) (s.reg j)) (setZN src s.flags)) 3

/-- DIV (R70): on a zero divisor only OVERFLOW is set (spec/60_exceptions.md R86); otherwise the quotient, with OVERFLOW
kept. -/
def execDiv (ra rb : Byte) (s : State) : Host.Outcome State Fault Refusal :=
  withRegs 3 ra rb s fun i j =>
    if s.reg j = 0 then (s.setFlags (writeFlag .overflow true s.flags)).advance 3
    else
      let q := divResult (s.reg i) (s.reg j)
      s.writeBack 0 q (setZN q s.flags) 3

end Sys2Proof.Machine
end

