-- ==== Sys2Proof/Machine/Control.lean ====
section
/-! DEFINITION. Control transfers: JMP, JZ, JNZ (spec/45_control.md R79 to R81). The target is the operand byte, an
absolute address; not taken, `pc` is past the operand. -/

namespace Sys2Proof.Machine

/-- A 2-byte jump to `addr` that is taken or not (R79 to R81). -/
def State.jumpIf (taken : Bool) (addr : Byte) (s : State) : State := if taken then s.setPc addr else s.advance 2

/-- JMP (R79). -/
def execJmp (addr : Byte) (s : State) : Host.Outcome State Fault Refusal := .next (s.jumpIf true addr)

/-- JZ (R80): taken when ZERO is 1. -/
def execJz (addr : Byte) (s : State) : Host.Outcome State Fault Refusal := .next (s.jumpIf (flagBit .zero s.flags) addr)

/-- JNZ (R81): taken when ZERO is 0. -/
def execJnz (addr : Byte) (s : State) : Host.Outcome State Fault Refusal :=
  .next (s.jumpIf (!flagBit .zero s.flags) addr)

end Sys2Proof.Machine
end

