-- ==== Sys2Proof/Machine/Engine.lean ====
section
/-! DEFINITION. Engine control: NOP, HALT and the unrecognized opcodes (spec/40_engine.md R61 to R63). -/

namespace Sys2Proof.Machine

/-- NOP (R61): only `pc` advances. -/
def execNop (s : State) : Host.Outcome State Fault Refusal := .next (s.advance 1)

/-- HALT (R62): `stop(HALT_OPCODE)`. -/
def execHalt (s : State) : Host.Outcome State Fault Refusal := .next (s.stop .haltOpcode)

/-- An unrecognized opcode (R63): `stop(UNRECOGNIZED_OPCODE)`; no operand byte belongs to it. It is no row of the opcode
table, so `step` calls it when the decoder rejects the bytes. -/
def execUnrecognized (s : State) : Host.Outcome State Fault Refusal := .next (s.stop .unrecognizedOpcode)

end Sys2Proof.Machine
end

