-- ==== Sys2Proof/Machine/LogicShift.lean ====
section
/-! DEFINITION. Logic and shifts: AND, OR, XOR, SHL, SHR (spec/43_logic_shift.md R72 to R76). -/

namespace Sys2Proof.Machine

/-- AND, OR and XOR but for the bitwise function: R0 gets the result, ZERO and NEGATIVE come from `quirkSrc`, CARRY and
OVERFLOW are kept (R72, R73, R74). -/
def logicToR0 (f : Byte → Byte → Byte) (ra rb : Byte) (s : State) : Host.Outcome State Fault Refusal :=
  withRegs 3 ra rb s fun i j =>
    let res := f (s.reg i) (s.reg j)
    s.writeBack 0 res (setZN (quirkSrc s.params i (s.reg i) res) s.flags) 3

/-- AND (R72). -/
def execAnd (ra rb : Byte) (s : State) : Host.Outcome State Fault Refusal := logicToR0 (· &&& ·) ra rb s

/-- OR (R73). -/
def execOr (ra rb : Byte) (s : State) : Host.Outcome State Fault Refusal := logicToR0 (· ||| ·) ra rb s

/-- XOR (R74). -/
def execXor (ra rb : Byte) (s : State) : Host.Outcome State Fault Refusal := logicToR0 (· ^^^ ·) ra rb s

/-- `(x * 2) mod 256` (R75). -/
def shlResult (x : Byte) : Byte := BitVec.ofNat 8 (x.toNat * 2)

/-- `x / 2` (R76). -/
def shrResult (x : Byte) : Byte := BitVec.ofNat 8 (x.toNat / 2)

/-- SHL (R75): in place, by one; the bit shifted out goes to no flag. -/
def execShl (ra : Byte) (s : State) : Host.Outcome State Fault Refusal :=
  withReg 2 ra s fun r => s.writeBack r (shlResult (s.reg r)) (setZN (shlResult (s.reg r)) s.flags) 2

/-- SHR (R76): logical, in place, by one; the bit shifted out goes to no flag. -/
def execShr (ra : Byte) (s : State) : Host.Outcome State Fault Refusal :=
  withReg 2 ra s fun r => s.writeBack r (shrResult (s.reg r)) (setZN (shrResult (s.reg r)) s.flags) 2

end Sys2Proof.Machine
end

