-- ==== Sys2Proof/Machine/Move.lean ====
section
/-! DEFINITION. Moves: LDI and MV (spec/41_move.md R65, R66). -/

namespace Sys2Proof.Machine

/-- LDI (R65): the immediate byte, unchanged, to the register; ZERO and NEGATIVE from it. -/
def execLdi (reg imm8 : Byte) (s : State) : Host.Outcome State Fault Refusal :=
  withReg 3 reg s fun r => s.writeBack r imm8 (setZN imm8 s.flags) 3

/-- MV (R66): the source register's value to the destination; ZERO and NEGATIVE from `moveSrc`. -/
def execMv (destReg srcReg : Byte) (s : State) : Host.Outcome State Fault Refusal :=
  withRegs 3 destReg srcReg s fun d r =>
    s.writeBack d (s.reg r) (setZN (moveSrc s.params srcReg (s.reg r)) s.flags) 3

end Sys2Proof.Machine
end

