-- ==== Sys2Proof/Machine/Stack.lean ====
section
/-! DEFINITION. The stack: PUSH and POP (spec/44_stack.md R77, R78). No overflow or underflow is detected. -/

namespace Sys2Proof.Machine

/-- The address PUSH stores to: `sp -8 1` (R77). -/
def pushAddr (s : State) : Byte := s.sp - 1

/-- PUSH (R77): `sp` goes down by 1, then the register is stored at the new `sp`. No flag changes. -/
def execPush (ra : Byte) (s : State) : Host.Outcome State Fault Refusal :=
  withReg 2 ra s fun r => ((s.setSp (pushAddr s)).writeMem (pushAddr s) (s.reg r)).advance 2

/-- POP (R78): the byte at `sp` to the register, then `sp` goes up by 1; ZERO and NEGATIVE from the byte. -/
def execPop (ra : Byte) (s : State) : Host.Outcome State Fault Refusal :=
  withReg 2 ra s fun r =>
    let v := s.readMem s.sp
    (s.setSp (s.sp + 1)).writeBack r v (setZN v s.flags) 2

end Sys2Proof.Machine
end

