-- ==== Sys2Proof/Machine/Step.lean ====
section
/-! DEFINITION. One step of the engine (spec/40_engine.md R59), and how the host places an instruction to be run. -/

namespace Sys2Proof.Machine

/-- One step: nothing on a stopped core (R59, spec/60_exceptions.md R92); otherwise the instruction whose bytes stand at
`pc`, or the halt of an unrecognized opcode (R63). -/
def step (s : State) : Host.Outcome State Fault Refusal :=
  match s.status with
  | .halted => .fault .haltedHasNoStep
  | .faulted => .fault .faultedHasNoStep
  | .running =>
    match decode s.instrBytes with
    | .instr i => exec i s
    | .rejected _ => execUnrecognized s

/-- `s` with the instruction whose bits are `w` (numbered as for `wordByte`) in the bytes that the next step fetches.
The step also needs a RUNNING core, so the status record says RUNNING; on a running core that changes nothing
(notes/assumptions/9.md). -/
def State.withFetchWord (s : State) (nbits w : Nat) : State :=
  ({ s with status := .running, cause := .none } : State).writeBytes s.pc (wordBytes nbits w)

end Sys2Proof.Machine
end

