-- ==== Sys2Proof/Machine/Interface.lean ====
section
/-! DEFINITION. What the host does with the core (spec/10_state.md R30): reset and load before the first step, running
until the core stops, and the read-only observation port. -/

namespace Sys2Proof.Machine

/-- reset (spec/70_reset_and_hazards.md R99): every piece of state gets its reset value; the machine's parameters stay. It
is the only way out of HALTED or FAULTED (spec/60_exceptions.md R92, R103). -/
def State.hostReset (s : State) : State := State.resetWith s.params

/-- reset, then at most one load of an image at address 0 (R100, R101). An image of more than 256 bytes is refused. There
is no other load: loading at another time is outside the model (R100, notes/assumptions/7.md). -/
def boot (p : Params) (image : List Byte) : Host.Outcome State Fault Refusal :=
  if image.length ≤ Config.memSize then .next ((State.resetWith p).writeBytes Config.loadBase image)
  else .refused (.imageTooLong image.length)

/-- A run under the host's step budget (spec/40_engine.md R60, spec/60_exceptions.md R98): the state in which the core
stopped, or `none` when the budget ran out, which gives no verdict. -/
def runFor : Nat → State → Option State
  | 0, s => if s.status = .running then none else some s
  | n + 1, s =>
    match s.status with
    | .running =>
      match step s with
      | .next t => runFor n t
      | .fault _ => none
      | .refused _ => none
    | .halted => some s
    | .faulted => some s

/-- What the host reads between steps (spec/10_state.md R29). -/
structure Observation where
  regs : Vector Byte 8
  flags : Byte
  sp : Byte
  pc : Byte
  status : Status
  /-- The number of the cause (spec/60_exceptions.md R84). -/
  cause : Nat
  /-- `cause_pc`, which is never read while RUNNING (93_implementation_defined.md I13; notes/assumptions/6.md). -/
  causePc : Option Byte
  /-- The 256 bytes of memory in address order. -/
  memory : List Byte
deriving DecidableEq, Repr

/-- The observation port (R29): reading has no effect. -/
def observe (s : State) : Observation :=
  { regs := s.regs
    flags := s.flags
    sp := s.sp
    pc := s.pc
    status := s.status
    cause := s.cause.code
    causePc := if s.status = .running then none else some s.causePc
    memory := (List.range Config.memSize).map fun k => s.readMem (BitVec.ofNat 8 k) }

end Sys2Proof.Machine
end

