-- ==== Sys2Proof/WellFormed.lean ====
section
/-! DEFINITION. Well-formed instructions: every register operand byte names one of R0..R7
(spec/10_state.md R15, spec/30_encoding.md R50). An ill-formed instruction still decodes and runs: it raises
InvalidRegisterIndex (spec/60_exceptions.md R88). -/

namespace Sys2Proof

/-- A byte is a valid register index when it is in 0..7 (R15). -/
def validIndex (b : Byte) : Bool := b.toNat < Config.nreg

/-- The register operand bytes of an instruction; immediate and address operands are not among them (R88). -/
def Instr.regOperands : Instr → List Byte
  | .nop => []
  | .halt => []
  | .ldi reg _ => [reg]
  | .mv destReg srcReg => [destReg, srcReg]
  | .add ra rb => [ra, rb]
  | .sub ra rb => [ra, rb]
  | .mul ra rb => [ra, rb]
  | .div ra rb => [ra, rb]
  | .and ra rb => [ra, rb]
  | .or ra rb => [ra, rb]
  | .xor ra rb => [ra, rb]
  | .shl ra => [ra]
  | .shr ra => [ra]
  | .push ra => [ra]
  | .pop ra => [ra]
  | .jmp _ => []
  | .jz _ => []
  | .jnz _ => []

/-- Every register operand byte is in 0..7. -/
def Instr.wellFormed (i : Instr) : Bool := i.regOperands.all validIndex

end Sys2Proof
end

