-- ==== Sys2Proof/Safety.lean ====
section
/-! DEFINITION. The terms claims use: what a state keeps from another, the invariant of the machine, what a stop record
says, and what counts as a safe run. -/

namespace Sys2Proof.Machine

/-! ### Frames -/

/-- Every register but those listed holds what it held. -/
def KeepsRegsBut (written : List RegIdx) (s t : State) : Prop := ∀ r, r ∉ written → t.reg r = s.reg r

/-- Every flag but those listed, and bits 3:0 of the flags byte, are what they were. -/
def KeepsFlagsBut (written : List Flag) (s t : State) : Prop :=
  (∀ x, x ∉ written → flagBit x t.flags = flagBit x s.flags) ∧ t.flags &&& 0x0F#8 = s.flags &&& 0x0F#8

/-- Every byte of memory reads as before. -/
def KeepsMem (s t : State) : Prop := ∀ a, t.readMem a = s.readMem a

/-- The status record is what it was. -/
def KeepsRecord (s t : State) : Prop := t.status = s.status ∧ t.cause = s.cause ∧ t.causePc = s.causePc

/-- ZERO and NEGATIVE are those of the byte `v` (spec/10_state.md R21, property P2). -/
def ZnFrom (v : Byte) (t : State) : Prop :=
  flagBit .zero t.flags = decide (v = 0) ∧ flagBit .negative t.flags = v.getLsbD 7

/-- What every instruction that stores nothing, moves no stack pointer and ends no run keeps. -/
def KeepsRest (s t : State) : Prop := t.sp = s.sp ∧ KeepsMem s t ∧ KeepsRecord s t ∧ t.params = s.params

/-- The reset values of spec/70_reset_and_hazards.md R99; `cause_pc` is unspecified there and not mentioned here. -/
def HasResetValues (t : State) : Prop :=
  (∀ r, t.reg r = 0x00#8) ∧ t.pc = 0x00#8 ∧ t.sp = 0xF0#8 ∧ t.flags = 0x00#8 ∧ (∀ a, t.readMem a = 0x00#8) ∧
    t.status = .running ∧ t.cause.code = 0

/-- An instruction of `len` bytes that raises InvalidRegisterIndex: the record gets FAULTED, cause 3 and the address of the
opcode byte, `pc` passes the instruction, and nothing else changes (spec/60_exceptions.md R90, R91). -/
def RaisedFrom (len : Nat) (s t : State) : Prop :=
  t.status = .faulted ∧ t.cause.code = 3 ∧ t.causePc = s.pc ∧ t.pc = s.pc + BitVec.ofNat 8 len ∧
    KeepsRegsBut [] s t ∧ t.flags = s.flags ∧ t.sp = s.sp ∧ KeepsMem s t ∧ t.params = s.params

/-- InvalidRegisterIndex was raised: the core is FAULTED with cause 3 (spec/60_exceptions.md R84, R88; the spec's decisions
D3 and D5, notes/assumptions/4.md). `RaisedFrom` says the whole state that is left, which is its decision D4. -/
def RaisedInvalidRegister (t : State) : Prop := t.status = .faulted ∧ t.cause.code = 3

/-- The end of a run by a halt with the given cause code: the record gets HALTED, the code and the address of the opcode
byte, `pc` passes that byte, and nothing else changes (spec/60_exceptions.md R85). -/
def StoppedFrom (code : Nat) (s t : State) : Prop :=
  t.status = .halted ∧ t.cause.code = code ∧ t.causePc = s.pc ∧ t.pc = s.pc + 1 ∧
    KeepsRegsBut [] s t ∧ t.flags = s.flags ∧ t.sp = s.sp ∧ KeepsMem s t ∧ t.params = s.params

/-! ### What the rules of several instructions share -/

/-- The byte that AND, OR, XOR and MUL take ZERO and NEGATIVE from (R22), written out: the result in CORRECTED mode, and in
REFERENCE mode when the first operand is R0 and is read after the write; else the first operand's value before it. -/
def ZnFromFirstOperand (s : State) (ra a res : Byte) (t : State) : Prop :=
  (s.params.flagMode = .corrected → ZnFrom res t) ∧
  (s.params.flagMode = .reference → ra.toNat = 0 → s.params.ra0Read = .afterWrite → ZnFrom res t) ∧
  (s.params.flagMode = .reference → ra.toNat = 0 → s.params.ra0Read = .beforeWrite → ZnFrom a t) ∧
  (s.params.flagMode = .reference → ra.toNat ≠ 0 → ZnFrom a t)

/-- What R72, R73 and R74 say of AND, OR and XOR, but for the opcode and the bitwise function. -/
def LogicMeetsItsRule (opcode : Byte) (i : Byte → Byte → Instr) (f : Byte → Byte → Byte) : Prop :=
  ∀ (ra rb : Byte) (s : State), encode (i ra rb) = [opcode, ra, rb] ∧
    (∀ (ha : ra.toNat < 8) (hb : rb.toNat < 8), ∃ t, exec (i ra rb) s = .next t ∧
      t.reg 0 = f (s.reg ⟨ra.toNat, ha⟩) (s.reg ⟨rb.toNat, hb⟩) ∧
      ZnFromFirstOperand s ra (s.reg ⟨ra.toNat, ha⟩) (t.reg 0) t ∧
      KeepsFlagsBut [.zero, .negative] s t ∧ KeepsRegsBut [0] s t ∧ t.pc = s.pc + 3 ∧ KeepsRest s t) ∧
    (8 ≤ ra.toNat ∨ 8 ≤ rb.toNat → ∃ t, exec (i ra rb) s = .next t ∧ RaisedInvalidRegister t)

/-- What R75 and R76 say of SHL and SHR, but for the opcode and the shifted value. -/
def ShiftMeetsItsRule (opcode : Byte) (i : Byte → Instr) (f : Nat → Nat) : Prop :=
  ∀ (ra : Byte) (s : State), encode (i ra) = [opcode, ra] ∧
    (∀ h : ra.toNat < 8, ∃ t, exec (i ra) s = .next t ∧
      (t.reg ⟨ra.toNat, h⟩).toNat = f (s.reg ⟨ra.toNat, h⟩).toNat ∧ ZnFrom (t.reg ⟨ra.toNat, h⟩) t ∧
      KeepsFlagsBut [.zero, .negative] s t ∧ KeepsRegsBut [⟨ra.toNat, h⟩] s t ∧ t.pc = s.pc + 2 ∧ KeepsRest s t) ∧
    (8 ≤ ra.toNat → ∃ t, exec (i ra) s = .next t ∧ RaisedFrom 2 s t)

/-! ### Invariants -/

/-- The invariant of the machine: memory in canonical form, bits 3:0 of `flags` zero (spec/10_state.md R20), and the status
and cause a pair of R84's table. -/
def MachineInv (s : State) : Prop :=
  s.mem.wf = true ∧ s.flags &&& 0x0F#8 = 0 ∧ statusRecordOk s.status s.cause = true

/-- The bytes of an instruction at address `a`: byte `k` is at `a +8 k` (spec/30_encoding.md R46). -/
def BytesAt (s : State) (a : Byte) (bytes : List Byte) : Prop :=
  ∀ k (h : k < bytes.length), s.readMem (a + BitVec.ofNat 8 k) = bytes[k]

/-- The stop record of a stopped core tells the truth (spec/60_exceptions.md R84): at `cause_pc` stands a HALT byte, an
unrecognized opcode, or an instruction with a register operand byte of 8 or more. -/
def StopExplained (s : State) : Prop :=
  match s.cause with
  | .none => False
  | .haltOpcode => s.status = .halted ∧ BytesAt s s.causePc (encode .halt) ∧ s.pc = s.causePc + 1
  | .unrecognizedOpcode => s.status = .halted ∧ s.readMem s.causePc ∉ assignedOpcodes ∧ s.pc = s.causePc + 1
  | .invalidRegisterIndex => s.status = .faulted ∧
      ∃ i : Instr, i.wellFormed = false ∧ BytesAt s s.causePc (encode i) ∧
        s.pc = s.causePc + BitVec.ofNat 8 i.length

/-! ### Runs -/

/-- `t` is reached from `s` by some number of steps. -/
def Reaches (s t : State) : Prop := ∃ n, Sys2Proof.core.run n s = .next t

/-- A run that never faults (spec/60_exceptions.md R90: a FAULTED state is never a successful end of a run). -/
def NeverFaults (s : State) : Prop := ∀ t, Reaches s t → t.status ≠ .faulted

/-- The run from `s` ends in the stopped state `t` (spec/40_engine.md R60). -/
def RunEnds (s t : State) : Prop := ∃ n, runFor n s = some t

end Sys2Proof.Machine
end

