-- ==== Sys2Proof/Certificates/Slice0/Obligations.lean ====
section
/-! DEFINITION. The statements for the provers. Each formalises what numbered rules of spec/ say, or what follows from
them; OBLIGATIONS.json lists them with their rules. Register operand bytes range over every byte: the clauses for bytes
in 0..7 say where the instruction completes, the clauses for bytes of 8 and more where it raises. -/

open Sys2Proof Sys2Proof.Machine

/-! ### Reset, load and the interface -/

/-- R99: reset leaves the reset values, from power-on and from every state the host resets. -/
def Obligations.ResetLeavesTheResetValues : Prop :=
  HasResetValues State.reset ∧ ∀ s : State, HasResetValues s.hostReset

/-- The state after reset meets the machine's invariant, whatever the parameters. -/
def Obligations.ResetMeetsTheInvariant : Prop :=
  MachineInv State.reset ∧ ∀ s : State, MachineInv s.hostReset

/-- Reset and load: an image of at most 256 bytes stands from address 0 on, every other byte reads 0x00 and the rest is as
reset leaves it; a longer image is refused (the refusal is the spec's D8). -/
def Obligations.BootLoadsTheImage : Prop :=
  ∀ (p : Params) (image : List Byte),
    (image.length ≤ 256 → ∃ t, boot p image = .next t ∧
      (∀ k (h : k < image.length), t.readMem (BitVec.ofNat 8 k) = image[k]) ∧
      (∀ a : Byte, image.length ≤ a.toNat → t.readMem a = 0x00#8) ∧
      (∀ r, t.reg r = 0x00#8) ∧ t.pc = 0x00#8 ∧ t.sp = 0xF0#8 ∧ t.flags = 0x00#8 ∧
      t.status = .running ∧ t.cause.code = 0 ∧ t.params = p ∧ MachineInv t) ∧
    (256 < image.length → boot p image = .refused (.imageTooLong image.length))

/-- The observation port shows registers, flags, sp, pc, status, cause and every byte of memory; `cause_pc` is shown when
the core is stopped. That it is not shown while RUNNING is the model's reading (notes/assumptions/6.md). -/
def Obligations.ObservationShowsTheState : Prop :=
  ∀ s : State, (observe s).regs = s.regs ∧ (observe s).flags = s.flags ∧ (observe s).sp = s.sp ∧
    (observe s).pc = s.pc ∧ (observe s).status = s.status ∧ (observe s).cause = s.cause.code ∧
    (s.status ≠ .running → (observe s).causePc = some s.causePc) ∧
    (s.status = .running → (observe s).causePc = none) ∧
    (observe s).memory.length = 256 ∧ ∀ a : Byte, (observe s).memory[a.toNat]? = some (s.readMem a)

/-- The value of `cause_pc` while RUNNING, which the spec leaves unspecified (the model's reset value is the choice of
notes/assumptions/1.md), reaches no observation of any run. A step from any other value leads to the same state if it stops
the core, and to the same state but for that value if the core goes on; and a run of `n` steps from any other value shows
the host the same after every step, or asks a stopped core for a step in both. A step that raises counts as one that stops
the core (notes/assumptions/4.md), a step of a stopped core answers its named fault (notes/assumptions/5.md), and what the host is
shown while RUNNING is the choice of notes/assumptions/6.md. -/
def Obligations.CausePcWhileRunningIsNeverSeen : Prop :=
  ∀ (s : State) (c : Byte), s.status = .running →
    observe { s with causePc := c } = observe s ∧
    (∃ t u, step s = .next t ∧ step { s with causePc := c } = .next u ∧ observe u = observe t ∧
      (t.status = .running → u = { t with causePc := c }) ∧ (t.status ≠ .running → u = t)) ∧
    ∀ n,
      (∃ t u, Sys2Proof.core.run n s = .next t ∧ Sys2Proof.core.run n { s with causePc := c } = .next u ∧
        observe u = observe t) ∨
      ∃ r, Sys2Proof.core.run n s = .fault r ∧ Sys2Proof.core.run n { s with causePc := c } = .fault r

/-- A run ends only in a stopped state, is a run of steps, does not depend on the host's budget once it has ended, and has
no other end. -/
def Obligations.RunEndsOnlyWhenStopped : Prop :=
  ∀ (n : Nat) (s t : State), runFor n s = some t →
    t.status ≠ .running ∧ (∃ m, m ≤ n ∧ Sys2Proof.core.run m s = .next t) ∧ (∀ k, runFor (n + k) s = some t) ∧
      ∀ u, RunEnds s u → u = t

/-! ### Encoding and the step -/

/-- Decode and encode agree, with every operand at every byte: decoding an encoding gives the instruction back whatever
follows it, and what decodes to an instruction starts with its encoding. -/
def Obligations.DecodeAndEncodeAgree : Prop :=
  (∀ (i : Instr) (rest : List Byte), decode (encode i ++ rest) = .instr i) ∧
    ∀ (bytes : List Byte) (i : Instr), decode bytes = .instr i → ∃ rest, bytes = encode i ++ rest

/-- R47: the opcode map. Each of the 18 opcodes selects its instruction with its operand bytes in address order, and
every other byte is unrecognized, whatever follows it. -/
def Obligations.OpcodeMapIsExact : Prop :=
  ∀ (b c : Byte) (rest : List Byte),
    decode (0x00#8 :: b :: c :: rest) = .instr .nop ∧
    decode (0x10#8 :: b :: c :: rest) = .instr .halt ∧
    decode (0x14#8 :: b :: c :: rest) = .instr (.ldi b c) ∧
    decode (0x18#8 :: b :: c :: rest) = .instr (.mv b c) ∧
    decode (0x20#8 :: b :: c :: rest) = .instr (.add b c) ∧
    decode (0x30#8 :: b :: c :: rest) = .instr (.sub b c) ∧
    decode (0x40#8 :: b :: c :: rest) = .instr (.mul b c) ∧
    decode (0x50#8 :: b :: c :: rest) = .instr (.div b c) ∧
    decode (0x60#8 :: b :: c :: rest) = .instr (.and b c) ∧
    decode (0x70#8 :: b :: c :: rest) = .instr (.or b c) ∧
    decode (0x80#8 :: b :: c :: rest) = .instr (.xor b c) ∧
    decode (0x90#8 :: b :: c :: rest) = .instr (.shl b) ∧
    decode (0xA0#8 :: b :: c :: rest) = .instr (.shr b) ∧
    decode (0xB0#8 :: b :: c :: rest) = .instr (.push b) ∧
    decode (0xC0#8 :: b :: c :: rest) = .instr (.pop b) ∧
    decode (0xD0#8 :: b :: c :: rest) = .instr (.jmp b) ∧
    decode (0xE0#8 :: b :: c :: rest) = .instr (.jz b) ∧
    decode (0xF0#8 :: b :: c :: rest) = .instr (.jnz b) ∧
    ∀ op : Byte,
      op ∉ [0x00#8, 0x10#8, 0x14#8, 0x18#8, 0x20#8, 0x30#8, 0x40#8, 0x50#8, 0x60#8, 0x70#8, 0x80#8, 0x90#8, 0xA0#8,
        0xB0#8, 0xC0#8, 0xD0#8, 0xE0#8, 0xF0#8] →
      decode (op :: rest) = .rejected (.unrecognizedOpcode op)

/-- R45: the length of an instruction is decided by its opcode byte alone. -/
def Obligations.LengthIsDecidedByTheOpcode : Prop :=
  ∀ i : Instr, ∃ op operands, encode i = op :: operands ∧ (encode i).length = i.length ∧
    (op ∈ [0x00#8, 0x10#8] → i.length = 1) ∧
    (op ∈ [0x90#8, 0xA0#8, 0xB0#8, 0xC0#8, 0xD0#8, 0xE0#8, 0xF0#8] → i.length = 2) ∧
    (op ∈ [0x14#8, 0x18#8, 0x20#8, 0x30#8, 0x40#8, 0x50#8, 0x60#8, 0x70#8, 0x80#8] → i.length = 3)

/-- A few encodings written out from the spec's scenarios decode to the instructions they stand for. -/
def Obligations.ScenarioBytesDecode : Prop :=
  decode [0x14#8, 0x01#8, 0x05#8] = .instr (.ldi 1 5) ∧ decode [0x18#8, 0x04#8, 0x00#8] = .instr (.mv 4 0) ∧
    decode [0x20#8, 0x01#8, 0x02#8] = .instr (.add 1 2) ∧ decode [0x40#8, 0x03#8, 0x04#8] = .instr (.mul 3 4) ∧
    decode [0x90#8, 0x01#8] = .instr (.shl 1) ∧ decode [0xB0#8, 0x05#8] = .instr (.push 5) ∧
    decode [0xE0#8, 0x06#8] = .instr (.jz 6) ∧ decode [0x10#8] = .instr .halt

/-- A step of a running core runs the instruction its bytes decode to, and adds nothing around it. -/
def Obligations.StepRunsTheDecodedInstruction : Prop :=
  ∀ (s : State) (i : Instr), s.status = .running →
    decode [s.readMem s.pc, s.readMem (s.pc + 1), s.readMem (s.pc + 2)] = .instr i → step s = exec i s

/-- An instruction whose encoding stands at `pc`, byte `k` at `pc +8 k` across the top of memory too, is the one that a
step runs. -/
def Obligations.StepRunsTheEncodedBytes : Prop :=
  ∀ (s : State) (i : Instr), s.status = .running → BytesAt s s.pc (encode i) → step s = exec i s

/-- The opcode and the operand bytes are the ones that as many `Fetch` operations read one by one, and those move `pc` past
the instruction and change nothing else. -/
def Obligations.FetchReadsTheInstruction : Prop :=
  ∀ (s : State) (i : Instr), BytesAt s s.pc (encode i) →
    (s.fetchMany i.length).1 = encode i ∧
      (s.fetchMany i.length).2 = { s with pc := s.pc + BitVec.ofNat 8 i.length }

/-- Placing a table word where the next step fetches makes that step run exactly the decoded instruction. -/
def Obligations.PlacedWordIsTheNextInstruction : Prop :=
  ∀ (s : State) (nbits w : Nat) (i : Instr), s.mem.wf = true → decodeTableWord nbits w = some i →
    step (s.withFetchWord nbits w) = exec i (s.withFetchWord nbits w)

/-! ### Engine control -/

/-- R61: NOP changes `pc` alone. -/
def Obligations.NopAdvancesPcAlone : Prop :=
  ∀ s : State, encode .nop = [0x00#8] ∧ ∃ t, exec .nop s = .next t ∧ t.pc = s.pc + 1 ∧ KeepsRegsBut [] s t ∧
    t.flags = s.flags ∧ KeepsRest s t

/-- HALT ends the run as a halt with cause 1, and no step follows: that `pc` is past the HALT byte is what R62 marks as
derived, and the named fault of a later step is the model's (notes/assumptions/5.md). -/
def Obligations.HaltStopsTheCore : Prop :=
  ∀ s : State, encode .halt = [0x10#8] ∧ ∃ t, exec .halt s = .next t ∧ StoppedFrom 1 s t ∧
    step t = .fault .haltedHasNoStep

/-- Any of the 238 other bytes at `pc` ends the run as a halt with cause 2, the spec's decision D5, and no step follows;
the named fault of a later step is the model's (notes/assumptions/5.md). -/
def Obligations.UnrecognizedOpcodeStopsTheCore : Prop :=
  ∀ s : State, s.status = .running → s.readMem s.pc ∉ assignedOpcodes →
    ∃ t, step s = .next t ∧ StoppedFrom 2 s t ∧ step t = .fault .haltedHasNoStep

/-- A stopped core has no step, and reset makes it run again: the spec's decision D6. That the model answers a step of a
stopped core with a named fault is the model's form of it (notes/assumptions/5.md). -/
def Obligations.StoppedCoreHasNoStep : Prop :=
  ∀ s : State,
    (s.status = .halted → step s = .fault .haltedHasNoStep ∧ ∀ n, Sys2Proof.core.run (n + 1) s = .fault .haltedHasNoStep) ∧
    (s.status = .faulted →
      step s = .fault .faultedHasNoStep ∧ ∀ n, Sys2Proof.core.run (n + 1) s = .fault .faultedHasNoStep) ∧
    s.hostReset.status = .running

/-- A running core always has a next state: no fetch, no operand and no data makes a step stop without one. -/
def Obligations.RunningCoreAlwaysSteps : Prop :=
  ∀ s : State, s.status = .running → ∃ t, step s = .next t

/-! ### Moves -/

/-- LDI, as in R65. FAULTED with cause 3 after raising is the spec's D3 and D5 and the model's reading
(notes/assumptions/4.md). -/
def Obligations.LdiMeetsItsRule : Prop :=
  ∀ (reg imm8 : Byte) (s : State), encode (.ldi reg imm8) = [0x14#8, reg, imm8] ∧
    (∀ h : reg.toNat < 8, ∃ t, exec (.ldi reg imm8) s = .next t ∧ t.reg ⟨reg.toNat, h⟩ = imm8 ∧ ZnFrom imm8 t ∧
      KeepsFlagsBut [.zero, .negative] s t ∧ KeepsRegsBut [⟨reg.toNat, h⟩] s t ∧ t.pc = s.pc + 3 ∧ KeepsRest s t) ∧
    (8 ≤ reg.toNat → ∃ t, exec (.ldi reg imm8) s = .next t ∧ RaisedInvalidRegister t)

/-- MV, as in R66, with the flags of both FLAG_MODEs: those of the source register's index byte in REFERENCE mode, those of
the moved value in CORRECTED mode. FAULTED with cause 3 after raising is the spec's D3 and D5 and the model's reading
(notes/assumptions/4.md). -/
def Obligations.MvMeetsItsRule : Prop :=
  ∀ (destReg srcReg : Byte) (s : State), encode (.mv destReg srcReg) = [0x18#8, destReg, srcReg] ∧
    (∀ (hd : destReg.toNat < 8) (hs : srcReg.toNat < 8), ∃ t, exec (.mv destReg srcReg) s = .next t ∧
      t.reg ⟨destReg.toNat, hd⟩ = s.reg ⟨srcReg.toNat, hs⟩ ∧
      (s.params.flagMode = .reference → ZnFrom srcReg t) ∧
      (s.params.flagMode = .corrected → ZnFrom (s.reg ⟨srcReg.toNat, hs⟩) t) ∧
      KeepsFlagsBut [.zero, .negative] s t ∧ KeepsRegsBut [⟨destReg.toNat, hd⟩] s t ∧ t.pc = s.pc + 3 ∧
      KeepsRest s t) ∧
    (8 ≤ destReg.toNat ∨ 8 ≤ srcReg.toNat → ∃ t, exec (.mv destReg srcReg) s = .next t ∧ RaisedInvalidRegister t)

/-! ### Arithmetic -/

/-- ADD, as in R67. FAULTED with cause 3 after raising is the spec's D3 and D5 and the model's reading
(notes/assumptions/4.md). -/
def Obligations.AddMeetsItsRule : Prop :=
  ∀ (ra rb : Byte) (s : State), encode (.add ra rb) = [0x20#8, ra, rb] ∧
    (∀ (ha : ra.toNat < 8) (hb : rb.toNat < 8), ∃ t, exec (.add ra rb) s = .next t ∧
      (t.reg 0).toNat = ((s.reg ⟨ra.toNat, ha⟩).toNat + (s.reg ⟨rb.toNat, hb⟩).toNat) % 256 ∧
      ZnFrom (t.reg 0) t ∧
      (flagBit .carry t.flags = true ↔ 255 < (s.reg ⟨ra.toNat, ha⟩).toNat + (s.reg ⟨rb.toNat, hb⟩).toNat) ∧
      KeepsFlagsBut [.zero, .negative, .carry] s t ∧ KeepsRegsBut [0] s t ∧ t.pc = s.pc + 3 ∧ KeepsRest s t) ∧
    (8 ≤ ra.toNat ∨ 8 ≤ rb.toNat → ∃ t, exec (.add ra rb) s = .next t ∧ RaisedInvalidRegister t)

/-- SUB. That the borrow is a < b is what R68 marks as derived; the state left by raising is the spec's D3 to D5
(notes/assumptions/4.md). -/
def Obligations.SubMeetsItsRule : Prop :=
  ∀ (ra rb : Byte) (s : State), encode (.sub ra rb) = [0x30#8, ra, rb] ∧
    (∀ (ha : ra.toNat < 8) (hb : rb.toNat < 8), ∃ t, exec (.sub ra rb) s = .next t ∧
      ((t.reg 0).toNat : Int) = ((s.reg ⟨ra.toNat, ha⟩).toNat - (s.reg ⟨rb.toNat, hb⟩).toNat : Int) % 256 ∧
      ZnFrom (t.reg 0) t ∧
      (flagBit .carry t.flags = true ↔ (s.reg ⟨ra.toNat, ha⟩).toNat < (s.reg ⟨rb.toNat, hb⟩).toNat) ∧
      KeepsFlagsBut [.zero, .negative, .carry] s t ∧ KeepsRegsBut [0] s t ∧ t.pc = s.pc + 3 ∧ KeepsRest s t) ∧
    (8 ≤ ra.toNat ∨ 8 ≤ rb.toNat → ∃ t, exec (.sub ra rb) s = .next t ∧ RaisedFrom 3 s t)

/-- MUL, as in R69. FAULTED with cause 3 after raising is the spec's D3 and D5 and the model's reading
(notes/assumptions/4.md). -/
def Obligations.MulMeetsItsRule : Prop :=
  ∀ (ra rb : Byte) (s : State), encode (.mul ra rb) = [0x40#8, ra, rb] ∧
    (∀ (ha : ra.toNat < 8) (hb : rb.toNat < 8), ∃ t, exec (.mul ra rb) s = .next t ∧
      (t.reg 0).toNat = ((s.reg ⟨ra.toNat, ha⟩).toNat * (s.reg ⟨rb.toNat, hb⟩).toNat) % 256 ∧
      ZnFromFirstOperand s ra (s.reg ⟨ra.toNat, ha⟩) (t.reg 0) t ∧
      (flagBit .overflow t.flags = true ↔ 255 < (s.reg ⟨ra.toNat, ha⟩).toNat * (s.reg ⟨rb.toNat, hb⟩).toNat) ∧
      KeepsFlagsBut [.zero, .negative, .overflow] s t ∧ KeepsRegsBut [0] s t ∧ t.pc = s.pc + 3 ∧ KeepsRest s t) ∧
    (8 ≤ ra.toNat ∨ 8 ≤ rb.toNat → ∃ t, exec (.mul ra rb) s = .next t ∧ RaisedInvalidRegister t)

/-- DIV by a divisor other than 0. That the quotient is rounded down is what the spec marks as general knowledge (its R8;
notes/assumptions/11.md); the state left by raising is its D3 to D5 (notes/assumptions/4.md). -/
def Obligations.DivMeetsItsRule : Prop :=
  ∀ (ra rb : Byte) (s : State), encode (.div ra rb) = [0x50#8, ra, rb] ∧
    (∀ (ha : ra.toNat < 8) (hb : rb.toNat < 8), s.reg ⟨rb.toNat, hb⟩ ≠ 0 → ∃ t, exec (.div ra rb) s = .next t ∧
      (t.reg 0).toNat = (s.reg ⟨ra.toNat, ha⟩).toNat / (s.reg ⟨rb.toNat, hb⟩).toNat ∧ ZnFrom (t.reg 0) t ∧
      KeepsFlagsBut [.zero, .negative] s t ∧ KeepsRegsBut [0] s t ∧ t.pc = s.pc + 3 ∧ KeepsRest s t) ∧
    (8 ≤ ra.toNat ∨ 8 ≤ rb.toNat → ∃ t, exec (.div ra rb) s = .next t ∧ RaisedFrom 3 s t)

/-- R86: division by zero is recovered inside DIV: OVERFLOW is set, every register, ZERO, NEGATIVE and CARRY are kept, the
core stays RUNNING with cause NONE, and execution continues past the instruction. -/
def Obligations.DivisionByZeroIsRecovered : Prop :=
  ∀ (ra rb : Byte) (s : State), ra.toNat < 8 → ∀ hb : rb.toNat < 8, s.reg ⟨rb.toNat, hb⟩ = 0 →
    ∃ t, exec (.div ra rb) s = .next t ∧ flagBit .overflow t.flags = true ∧ KeepsFlagsBut [.overflow] s t ∧
      KeepsRegsBut [] s t ∧ t.pc = s.pc + 3 ∧ KeepsRest s t

/-! ### Logic and shifts -/

/-- AND, OR and XOR, as in R72, R73 and R74. FAULTED with cause 3 after raising is the spec's D3 and D5 and the
model's reading (notes/assumptions/4.md). -/
def Obligations.LogicInstructionsMeetTheirRules : Prop :=
  LogicMeetsItsRule 0x60#8 .and (fun a b => a &&& b) ∧ LogicMeetsItsRule 0x70#8 .or (fun a b => a ||| b) ∧
    LogicMeetsItsRule 0x80#8 .xor (fun a b => a ^^^ b)

/-- SHL and SHR, in place; NEGATIVE is always 0 after SHR. That 0 fills the vacated bit is what R75 and R76 mark as general
knowledge (notes/assumptions/11.md); the state left by raising is the spec's D3 to D5 (notes/assumptions/4.md). -/
def Obligations.ShiftsMeetTheirRules : Prop :=
  ShiftMeetsItsRule 0x90#8 .shl (fun x => x * 2 % 256) ∧ ShiftMeetsItsRule 0xA0#8 .shr (fun x => x / 2) ∧
    ∀ (ra : Byte) (s t : State), ra.toNat < 8 → exec (.shr ra) s = .next t → flagBit .negative t.flags = false

/-! ### Stack -/

/-- PUSH, as in R77: it stores at `pushAddr`, the old `sp` minus 1, which becomes `sp`. That the stored byte reads back
needs the memory in its canonical form (the model's form, notes/assumptions/8.md), which every step keeps. FAULTED with
cause 3 after raising is the spec's D3 and D5 and the model's reading (notes/assumptions/4.md). -/
def Obligations.PushMeetsItsRule : Prop :=
  ∀ (ra : Byte) (s : State), encode (.push ra) = [0xB0#8, ra] ∧ pushAddr s = s.sp - 1 ∧
    (∀ h : ra.toNat < 8, ∃ t, exec (.push ra) s = .next t ∧ t.sp = pushAddr s ∧
      (s.mem.wf = true → t.readMem (pushAddr s) = s.reg ⟨ra.toNat, h⟩) ∧ (∀ a, a ≠ pushAddr s → t.readMem a = s.readMem a) ∧
      KeepsRegsBut [] s t ∧ t.flags = s.flags ∧ t.pc = s.pc + 2 ∧ KeepsRecord s t ∧ t.params = s.params) ∧
    (8 ≤ ra.toNat → ∃ t, exec (.push ra) s = .next t ∧ RaisedInvalidRegister t)

/-- POP, as in R78, and property P3 with it: after a PUSH it brings the pushed register back, to any register, with `sp`
where it was (memory in canonical form, notes/assumptions/8.md). FAULTED with cause 3 after raising is the spec's D3 and D5
and the model's reading (notes/assumptions/4.md). -/
def Obligations.PopMeetsItsRule : Prop :=
  ∀ (ra : Byte) (s : State), encode (.pop ra) = [0xC0#8, ra] ∧
    (∀ h : ra.toNat < 8, ∃ t, exec (.pop ra) s = .next t ∧ t.reg ⟨ra.toNat, h⟩ = s.readMem s.sp ∧ t.sp = s.sp + 1 ∧
      ZnFrom (s.readMem s.sp) t ∧ KeepsFlagsBut [.zero, .negative] s t ∧ KeepsRegsBut [⟨ra.toNat, h⟩] s t ∧
      t.pc = s.pc + 2 ∧ KeepsMem s t ∧ KeepsRecord s t ∧ t.params = s.params) ∧
    (∀ (h : ra.toNat < 8) (rs : Byte) (hs : rs.toNat < 8), s.mem.wf = true →
      ∃ p u, exec (.push rs) s = .next p ∧ exec (.pop ra) p = .next u ∧
        u.reg ⟨ra.toNat, h⟩ = s.reg ⟨rs.toNat, hs⟩ ∧ KeepsRegsBut [⟨ra.toNat, h⟩] s u ∧ u.sp = s.sp ∧
        ZnFrom (s.reg ⟨rs.toNat, hs⟩) u) ∧
    (8 ≤ ra.toNat → ∃ t, exec (.pop ra) s = .next t ∧ RaisedInvalidRegister t)

/-- PUSH then POP moves a register through the stack: the source's property P3 and the idiom of R58, for every pair of
registers, unless the store hits the POP's own bytes. The premise on the form of memory is the model's
(notes/assumptions/8.md). -/
def Obligations.PushThenPopMovesTheRegister : Prop :=
  ∀ (rs rd : Byte) (s : State) (hs : rs.toNat < 8) (hd : rd.toNat < 8), s.status = .running → s.mem.wf = true →
    BytesAt s s.pc [0xB0#8, rs, 0xC0#8, rd] → s.sp - 1 ≠ s.pc + 2 → s.sp - 1 ≠ s.pc + 3 →
    ∃ t u, step s = .next t ∧ step t = .next u ∧ u.reg ⟨rd.toNat, hd⟩ = s.reg ⟨rs.toNat, hs⟩ ∧
      KeepsRegsBut [⟨rd.toNat, hd⟩] s u ∧ u.sp = s.sp ∧ ZnFrom (s.reg ⟨rs.toNat, hs⟩) u ∧
      KeepsFlagsBut [.zero, .negative] s u ∧ u.pc = s.pc + 4 ∧
      (∀ a, a ≠ s.sp - 1 → u.readMem a = s.readMem a) ∧ u.readMem (s.sp - 1) = s.reg ⟨rs.toNat, hs⟩ ∧
      KeepsRecord s u ∧ u.params = s.params

/-- A PUSH that writes a HALT byte over the next opcode is followed by that HALT: fetch sees the store at once. -/
def Obligations.PushedOpcodeIsFetchedNext : Prop :=
  ∀ (ra : Byte) (s : State) (h : ra.toNat < 8), s.status = .running → s.mem.wf = true →
    BytesAt s s.pc [0xB0#8, ra] → s.sp - 1 = s.pc + 2 → s.reg ⟨ra.toNat, h⟩ = 0x10#8 →
    ∃ t u, step s = .next t ∧ step t = .next u ∧ u.status = .halted ∧ u.cause.code = 1 ∧ u.causePc = s.pc + 2 ∧
      u.pc = s.pc + 3

/-! ### Control flow -/

/-- R79, R80, R81: JMP, JZ and JNZ change `pc` alone, to the address or past the operand. -/
def Obligations.JumpsMeetTheirRules : Prop :=
  ∀ (addr : Byte) (s : State),
    encode (.jmp addr) = [0xD0#8, addr] ∧ encode (.jz addr) = [0xE0#8, addr] ∧ encode (.jnz addr) = [0xF0#8, addr] ∧
    (∃ t, exec (.jmp addr) s = .next t ∧ t.pc = addr ∧ KeepsRegsBut [] s t ∧ t.flags = s.flags ∧ KeepsRest s t) ∧
    (∃ t, exec (.jz addr) s = .next t ∧
      t.pc = (if flagBit .zero s.flags = true then addr else s.pc + 2) ∧ KeepsRegsBut [] s t ∧ t.flags = s.flags ∧
      KeepsRest s t) ∧
    (∃ t, exec (.jnz addr) s = .next t ∧
      t.pc = (if flagBit .zero s.flags = true then s.pc + 2 else addr) ∧ KeepsRegsBut [] s t ∧ t.flags = s.flags ∧
      KeepsRest s t)

/-- Property P1 and R17: a step that completes leaves `pc` past the instruction, except a jump that is taken. For an
instruction that raises this is the spec's D4 (R90; notes/assumptions/4.md). -/
def Obligations.PcPassesTheInstruction : Prop :=
  ∀ (s t : State) (i : Instr), BytesAt s s.pc (encode i) → step s = .next t →
    t.pc = s.pc + BitVec.ofNat 8 i.length ∨
      (∃ addr, i = .jmp addr ∧ t.pc = addr) ∨
      (∃ addr, i = .jz addr ∧ flagBit .zero s.flags = true ∧ t.pc = addr) ∨
      ∃ addr, i = .jnz addr ∧ flagBit .zero s.flags = false ∧ t.pc = addr

/-- Memory that reads 0x00 runs as NOPs, through the top of memory too: `n` steps over `n` such bytes move `pc` by `n`
and change nothing else. -/
def Obligations.ZeroBytesRunAsNops : Prop :=
  ∀ (n : Nat) (s : State), s.status = .running → (∀ k, k < n → s.readMem (s.pc + BitVec.ofNat 8 k) = 0x00#8) →
    Sys2Proof.core.run n s = .next { s with pc := s.pc + BitVec.ofNat 8 n }

/-! ### Exceptions -/

/-- An instruction with a register operand byte of 8 or more raises InvalidRegisterIndex, whatever its other operands and
the state hold; no other instruction does. The state it leaves is the spec's decision D4 (notes/assumptions/4.md). -/
def Obligations.InvalidRegisterIndexIsRaisedExactly : Prop :=
  ∀ (i : Instr) (s : State),
    ((∃ b ∈ i.regOperands, 8 ≤ b.toNat) → ∃ t, exec i s = .next t ∧ RaisedFrom i.length s t) ∧
    ((∀ b ∈ i.regOperands, b.toNat < 8) → s.status = .running →
      ∃ t, exec i s = .next t ∧ t.status ≠ .faulted)

/-- The stop record tells the truth: when a step stops the core, at `cause_pc` stands the HALT byte, the unrecognized
opcode or the instruction with the invalid operand byte that the cause names. For a FAULTED state, `pc` past the
instruction and memory kept are the spec's decision D4 (R90; notes/assumptions/4.md). -/
def Obligations.StopRecordTellsTheTruth : Prop :=
  ∀ s t : State, step s = .next t → t.status ≠ .running → StopExplained t ∧ t.causePc = s.pc ∧ KeepsMem s t

/-! ### What a step keeps -/

/-- Every step keeps the machine's invariant: canonical memory, bits 3:0 of `flags` zero (R20), and a status and cause
that are a pair of R84's table. -/
def Obligations.StepKeepsTheInvariant : Prop :=
  ∀ s t : State, MachineInv s → step s = .next t → MachineInv t

/-- Every state that a run reaches from a state with the invariant has it. -/
def Obligations.RunsKeepTheInvariant : Prop :=
  ∀ s t : State, MachineInv s → Reaches s t → MachineInv t

/-- A run on which every instruction reached names only registers R0 to R7 never faults. -/
def Obligations.RunsOfWellFormedInstructionsNeverFault : Prop :=
  ∀ s : State, s.status ≠ .faulted →
    (∀ (u : State) (i : Instr), Reaches s u → u.status = .running → BytesAt u u.pc (encode i) → i.wellFormed = true) →
    NeverFaults s

/-- No step changes the model's parameters (the model's own field, notes/assumptions/2.md). -/
def Obligations.StepKeepsTheParameters : Prop :=
  ∀ s t : State, step s = .next t → t.params = s.params

/-- A step that changes CARRY runs an ADD or a SUB with valid operands: an instruction that raises writes no flag, which is
the spec's D3 and D4 (R87, R90; notes/assumptions/4.md). -/
def Obligations.OnlyAddAndSubChangeCarry : Prop :=
  ∀ s t : State, step s = .next t → flagBit .carry t.flags ≠ flagBit .carry s.flags →
    (s.readMem s.pc = 0x20#8 ∨ s.readMem s.pc = 0x30#8) ∧ (s.readMem (s.pc + 1)).toNat < 8 ∧
      (s.readMem (s.pc + 2)).toNat < 8

/-- A step that sets OVERFLOW runs a MUL or a DIV, a step that clears it runs a MUL: the sticky policy. -/
def Obligations.OverflowIsStickyUntilMul : Prop :=
  ∀ s t : State, step s = .next t →
    (flagBit .overflow s.flags = false → flagBit .overflow t.flags = true →
      s.readMem s.pc = 0x40#8 ∨ s.readMem s.pc = 0x50#8) ∧
    (flagBit .overflow s.flags = true → flagBit .overflow t.flags = false → s.readMem s.pc = 0x40#8)

/-- A step that changes ZERO or NEGATIVE runs one of the instructions that call SetZN. -/
def Obligations.OnlySetZnCallersChangeZeroAndNegative : Prop :=
  ∀ (s t : State) (x : Flag), x = .zero ∨ x = .negative → step s = .next t →
    flagBit x t.flags ≠ flagBit x s.flags →
    s.readMem s.pc ∈ [0x14#8, 0x18#8, 0x20#8, 0x30#8, 0x40#8, 0x50#8, 0x60#8, 0x70#8, 0x80#8, 0x90#8, 0xA0#8, 0xC0#8]

/-- A step moves `sp` by PUSH and POP alone, down by 1 and up by 1 modulo 256. -/
def Obligations.OnlyPushAndPopMoveSp : Prop :=
  ∀ s t : State, step s = .next t →
    t.sp = s.sp ∨ (s.readMem s.pc = 0xB0#8 ∧ t.sp = s.sp - 1) ∨ (s.readMem s.pc = 0xC0#8 ∧ t.sp = s.sp + 1)

/-- A step changes at most one byte of memory, by PUSH, at the old `sp` minus 1. -/
def Obligations.OnlyPushChangesMemory : Prop :=
  ∀ (s t : State) (a : Byte), step s = .next t → t.readMem a ≠ s.readMem a →
    s.readMem s.pc = 0xB0#8 ∧ a = s.sp - 1

/-- An instruction changes no register but its destination: the register LDI, MV, SHL, SHR and POP name, and R0 for the
two-operand ALU instructions. That an instruction that raises changes none is the spec's D4 (notes/assumptions/4.md). -/
def Obligations.OnlyTheDestinationRegisterChanges : Prop :=
  ∀ (i : Instr) (s t : State) (r : RegIdx), exec i s = .next t → t.reg r ≠ s.reg r →
    match i with
    | .ldi reg _ => reg.toNat = r.val
    | .mv destReg _ => destReg.toNat = r.val
    | .shl ra => ra.toNat = r.val
    | .shr ra => ra.toNat = r.val
    | .pop ra => ra.toNat = r.val
    | .add _ _ => r.val = 0
    | .sub _ _ => r.val = 0
    | .mul _ _ => r.val = 0
    | .div _ _ => r.val = 0
    | .and _ _ => r.val = 0
    | .or _ _ => r.val = 0
    | .xor _ _ => r.val = 0
    | .nop => False
    | .halt => False
    | .push _ => False
    | .jmp _ => False
    | .jz _ => False
    | .jnz _ => False

/-! ### What an instruction cannot learn -/

/-- No instruction reads CARRY, OVERFLOW or NEGATIVE: with the same ZERO, other flags lead to the same registers, memory,
`pc`, `sp` and status record, and each flag after is written alike or carried over from before. -/
def Obligations.OnlyZeroIsRead : Prop :=
  ∀ (i : Instr) (s : State) (f : Byte), flagBit .zero f = flagBit .zero s.flags →
    ∃ t u, exec i s = .next t ∧ exec i (s.setFlags f) = .next u ∧ u = t.setFlags u.flags ∧
      ∀ x, flagBit x u.flags = flagBit x t.flags ∨
        (flagBit x u.flags = flagBit x f ∧ flagBit x t.flags = flagBit x s.flags)

/-- FLAG_MODE and RA0_READ decide ZERO and NEGATIVE after MV, AND, OR, XOR and MUL and nothing else. -/
def Obligations.ParametersDecideOnlyQuirkFlags : Prop :=
  ∀ (i : Instr) (s : State) (p : Params),
    ∃ t u, exec i s = .next t ∧ exec i { s with params := p } = .next u ∧
      u = { t with params := p, flags := u.flags } ∧ KeepsFlagsBut [.zero, .negative] t u ∧
      (u.flags ≠ t.flags →
        (encode i).head? ∈ [some 0x18#8, some 0x40#8, some 0x60#8, some 0x70#8, some 0x80#8])

/-! ### Shared operations -/

/-- R21: SetZN. -/
def Obligations.SetZnWritesZeroAndNegative : Prop :=
  ∀ v f : Byte, (flagBit .zero (setZN v f) = true ↔ v = 0) ∧ flagBit .negative (setZN v f) = v.getLsbD 7 ∧
    flagBit .carry (setZN v f) = flagBit .carry f ∧ flagBit .overflow (setZN v f) = flagBit .overflow f ∧
    setZN v f &&& 0x0F#8 = f &&& 0x0F#8

/-- A memory in canonical form stays in it under every store, reads the stored byte back, and reads every other address as
before. -/
def Obligations.StoreThenReadGivesTheByte : Prop :=
  ∀ (s : State) (a v : Byte), s.mem.wf = true →
    (s.writeMem a v).mem.wf = true ∧ (s.writeMem a v).readMem a = v ∧
      ∀ b, b ≠ a → (s.writeMem a v).readMem b = s.readMem b

/-- Two memories in canonical form that read alike at every address are the same data. -/
def Obligations.EqualReadsMeanEqualMemory : Prop :=
  ∀ s t : State, s.mem.wf = true → t.mem.wf = true → (∀ a, s.readMem a = t.readMem a) → s.mem = t.mem
end

