-- ==== Sys2Proof/Laws/Decode.lean ====
section
/-! SUPPORT. The shape of encodings and what the decoder can answer (spec/30_encoding.md R45 to R48, R54). -/

namespace Sys2Proof

@[simp] theorem encode_length (i : Instr) : (encode i).length = i.length := by cases i <;> rfl

theorem encode_ne_nil (i : Instr) : encode i ≠ [] := by cases i <;> simp [encode]

/-- The first byte of an encoding is an assigned opcode (R47). -/
theorem encode_head_assigned (i : Instr) : ∃ op rest, encode i = op :: rest ∧ op ∈ assignedOpcodes := by
  cases i <;> exact ⟨_, _, rfl, by decide⟩

theorem Instr.length_pos (i : Instr) : 0 < i.length := by cases i <;> simp [Instr.length]

theorem Instr.length_le (i : Instr) : i.length ≤ Config.maxInstrLength := by
  cases i <;> simp [Instr.length, Config.maxInstrLength]

/-- Everything `takeOne` can answer. -/
theorem takeOne_cases (op : Byte) (f : Byte → Instr) (bs : List Byte) :
    (∃ b rest, bs = b :: rest ∧ takeOne op f bs = .instr (f b)) ∨
      (bs = [] ∧ takeOne op f bs = .rejected (.missingOperand op)) := by
  cases bs with
  | nil => exact .inr ⟨rfl, rfl⟩
  | cons b rest => exact .inl ⟨b, rest, rfl, rfl⟩

/-- Everything `takeTwo` can answer. -/
theorem takeTwo_cases (op : Byte) (f : Byte → Byte → Instr) (bs : List Byte) :
    (∃ b c rest, bs = b :: c :: rest ∧ takeTwo op f bs = .instr (f b c)) ∨
      (bs.length < 2 ∧ takeTwo op f bs = .rejected (.missingOperand op)) := by
  match bs with
  | [] => exact .inr ⟨by decide, rfl⟩
  | [_] => exact .inr ⟨by simp, rfl⟩
  | b :: c :: rest => exact .inl ⟨b, c, rest, rfl, rfl⟩

/-- The decoder on a byte that is not an opcode (R54). -/
theorem decode_unassigned {op : Byte} (h : op ∉ assignedOpcodes) (rest : List Byte) :
    decode (op :: rest) = .rejected (.unrecognizedOpcode op) := by
  simp only [assignedOpcodes, List.mem_cons, List.not_mem_nil, or_false, not_or] at h
  unfold decode
  split <;> simp_all

/-- The decoder on an opcode and at least two more bytes: an instruction that starts with that opcode. -/
theorem decode_assigned {op : Byte} (h : op ∈ assignedOpcodes) (b c : Byte) (rest : List Byte) :
    ∃ i tail, decode (op :: b :: c :: rest) = .instr i ∧ encode i ++ tail = op :: b :: c :: rest := by
  simp only [assignedOpcodes, List.mem_cons, List.not_mem_nil, or_false] at h
  rcases h with rfl | rfl | rfl | rfl | rfl | rfl | rfl | rfl | rfl | rfl | rfl | rfl | rfl | rfl | rfl | rfl | rfl | rfl <;>
    exact ⟨_, _, rfl, rfl⟩

end Sys2Proof
end

