-- ==== Sys2Proof/Laws/Flags.lean ====
section
/-! SUPPORT. What reading a flag after writing one gives, and that bits 3:0 of the flags byte are never written
(spec/10_state.md R19 to R21). -/

namespace Sys2Proof.Machine

/-- Reading flag `y` after writing flag `x`. -/
theorem flagBit_writeFlag (x y : Flag) (b : Bool) (f : Byte) :
    flagBit y (writeFlag x b f) = if y = x then b else flagBit y f := by
  revert b f; cases x <;> cases y <;> decide

@[simp] theorem flagBit_writeFlag_self (x : Flag) (b : Bool) (f : Byte) : flagBit x (writeFlag x b f) = b := by
  simp [flagBit_writeFlag]

theorem flagBit_writeFlag_ne {x y : Flag} (h : y ≠ x) (b : Bool) (f : Byte) :
    flagBit y (writeFlag x b f) = flagBit y f := by
  simp [flagBit_writeFlag, h]

/-- Bits 3:0 are kept by a flag write (R20). -/
@[simp] theorem writeFlag_low (x : Flag) (b : Bool) (f : Byte) : writeFlag x b f &&& 0x0F#8 = f &&& 0x0F#8 := by
  revert b f; cases x <;> decide

/-- Everything `SetZN(v)` does to a flag (R21). -/
theorem flagBit_setZN (y : Flag) (v f : Byte) :
    flagBit y (setZN v f) =
      match y with
      | .zero => decide (v = 0)
      | .negative => v.msb
      | .carry => flagBit .carry f
      | .overflow => flagBit .overflow f := by
  cases y <;> simp [setZN, flagBit_writeFlag]

@[simp] theorem setZN_low (v f : Byte) : setZN v f &&& 0x0F#8 = f &&& 0x0F#8 := by
  simp [setZN]

/-- The sign bit as bit 7 (R8). -/
theorem msb_eq_bit7 (v : Byte) : v.msb = v.getLsbD 7 := rfl

/-- Everything `quirkSrc` can be (R22). -/
theorem quirkSrc_cases (p : Params) (ra : RegIdx) (a res : Byte) :
    ((p.flagMode = .corrected ∨ (ra = 0 ∧ p.ra0Read = .afterWrite)) ∧ quirkSrc p ra a res = res) ∨
      (p.flagMode = .reference ∧ (ra ≠ 0 ∨ p.ra0Read = .beforeWrite) ∧ quirkSrc p ra a res = a) := by
  obtain ⟨m, r⟩ := p
  cases m <;> cases r <;> by_cases h : ra = 0 <;> simp [quirkSrc, h]

@[simp] theorem moveSrc_reference {p : Params} (h : p.flagMode = .reference) (srcReg v : Byte) :
    moveSrc p srcReg v = srcReg := by simp [moveSrc, h]

@[simp] theorem moveSrc_corrected {p : Params} (h : p.flagMode = .corrected) (srcReg v : Byte) :
    moveSrc p srcReg v = v := by simp [moveSrc, h]

/-- A flags byte is its four flags and its bits 3:0 (R19). -/
theorem flags_split (f : Byte) :
    f = (bif flagBit .zero f then 0x80#8 else 0#8) ||| (bif flagBit .carry f then 0x40#8 else 0#8) |||
      (bif flagBit .overflow f then 0x20#8 else 0#8) ||| (bif flagBit .negative f then 0x10#8 else 0#8) |||
      (f &&& 0x0F#8) := by
  revert f; decide

/-- Two flags bytes with the same four flags and the same bits 3:0 are equal (R19). -/
theorem flags_ext {f g : Byte} (h : ∀ x, flagBit x f = flagBit x g) (hl : f &&& 0x0F#8 = g &&& 0x0F#8) : f = g := by
  rw [flags_split f, flags_split g, h, h, h, h, hl]

end Sys2Proof.Machine
end

