-- ==== Sys2Proof/Laws/State.lean ====
section
/-! SUPPORT. One lemma per field and per update of State, all by rfl: no later proof unfolds a record update. -/

namespace Sys2Proof.Machine

variable (s : State)

/-! ### setReg -/

@[simp] theorem State.setReg_regs (r : RegIdx) (v : Byte) : (s.setReg r v).regs = s.regs.set r v := rfl
@[simp] theorem State.setReg_pc (r : RegIdx) (v : Byte) : (s.setReg r v).pc = s.pc := rfl
@[simp] theorem State.setReg_sp (r : RegIdx) (v : Byte) : (s.setReg r v).sp = s.sp := rfl
@[simp] theorem State.setReg_flags (r : RegIdx) (v : Byte) : (s.setReg r v).flags = s.flags := rfl
@[simp] theorem State.setReg_mem (r : RegIdx) (v : Byte) : (s.setReg r v).mem = s.mem := rfl
@[simp] theorem State.setReg_status (r : RegIdx) (v : Byte) : (s.setReg r v).status = s.status := rfl
@[simp] theorem State.setReg_cause (r : RegIdx) (v : Byte) : (s.setReg r v).cause = s.cause := rfl
@[simp] theorem State.setReg_causePc (r : RegIdx) (v : Byte) : (s.setReg r v).causePc = s.causePc := rfl
@[simp] theorem State.setReg_params (r : RegIdx) (v : Byte) : (s.setReg r v).params = s.params := rfl
@[simp] theorem State.setReg_readMem (r : RegIdx) (v : Byte) (b : Byte) : (s.setReg r v).readMem b = s.readMem b := rfl

/-! ### setFlags -/

@[simp] theorem State.setFlags_regs (f : Byte) : (s.setFlags f).regs = s.regs := rfl
@[simp] theorem State.setFlags_pc (f : Byte) : (s.setFlags f).pc = s.pc := rfl
@[simp] theorem State.setFlags_sp (f : Byte) : (s.setFlags f).sp = s.sp := rfl
@[simp] theorem State.setFlags_flags (f : Byte) : (s.setFlags f).flags = f := rfl
@[simp] theorem State.setFlags_mem (f : Byte) : (s.setFlags f).mem = s.mem := rfl
@[simp] theorem State.setFlags_status (f : Byte) : (s.setFlags f).status = s.status := rfl
@[simp] theorem State.setFlags_cause (f : Byte) : (s.setFlags f).cause = s.cause := rfl
@[simp] theorem State.setFlags_causePc (f : Byte) : (s.setFlags f).causePc = s.causePc := rfl
@[simp] theorem State.setFlags_params (f : Byte) : (s.setFlags f).params = s.params := rfl
@[simp] theorem State.setFlags_reg (f : Byte) (q : RegIdx) : (s.setFlags f).reg q = s.reg q := rfl
@[simp] theorem State.setFlags_readMem (f : Byte) (b : Byte) : (s.setFlags f).readMem b = s.readMem b := rfl

/-! ### setPc -/

@[simp] theorem State.setPc_regs (a : Byte) : (s.setPc a).regs = s.regs := rfl
@[simp] theorem State.setPc_pc (a : Byte) : (s.setPc a).pc = a := rfl
@[simp] theorem State.setPc_sp (a : Byte) : (s.setPc a).sp = s.sp := rfl
@[simp] theorem State.setPc_flags (a : Byte) : (s.setPc a).flags = s.flags := rfl
@[simp] theorem State.setPc_mem (a : Byte) : (s.setPc a).mem = s.mem := rfl
@[simp] theorem State.setPc_status (a : Byte) : (s.setPc a).status = s.status := rfl
@[simp] theorem State.setPc_cause (a : Byte) : (s.setPc a).cause = s.cause := rfl
@[simp] theorem State.setPc_causePc (a : Byte) : (s.setPc a).causePc = s.causePc := rfl
@[simp] theorem State.setPc_params (a : Byte) : (s.setPc a).params = s.params := rfl
@[simp] theorem State.setPc_reg (a : Byte) (q : RegIdx) : (s.setPc a).reg q = s.reg q := rfl
@[simp] theorem State.setPc_readMem (a : Byte) (b : Byte) : (s.setPc a).readMem b = s.readMem b := rfl

/-! ### setSp -/

@[simp] theorem State.setSp_regs (a : Byte) : (s.setSp a).regs = s.regs := rfl
@[simp] theorem State.setSp_pc (a : Byte) : (s.setSp a).pc = s.pc := rfl
@[simp] theorem State.setSp_sp (a : Byte) : (s.setSp a).sp = a := rfl
@[simp] theorem State.setSp_flags (a : Byte) : (s.setSp a).flags = s.flags := rfl
@[simp] theorem State.setSp_mem (a : Byte) : (s.setSp a).mem = s.mem := rfl
@[simp] theorem State.setSp_status (a : Byte) : (s.setSp a).status = s.status := rfl
@[simp] theorem State.setSp_cause (a : Byte) : (s.setSp a).cause = s.cause := rfl
@[simp] theorem State.setSp_causePc (a : Byte) : (s.setSp a).causePc = s.causePc := rfl
@[simp] theorem State.setSp_params (a : Byte) : (s.setSp a).params = s.params := rfl
@[simp] theorem State.setSp_reg (a : Byte) (q : RegIdx) : (s.setSp a).reg q = s.reg q := rfl
@[simp] theorem State.setSp_readMem (a : Byte) (b : Byte) : (s.setSp a).readMem b = s.readMem b := rfl

/-! ### writeMem -/

@[simp] theorem State.writeMem_regs (a v : Byte) : (s.writeMem a v).regs = s.regs := rfl
@[simp] theorem State.writeMem_pc (a v : Byte) : (s.writeMem a v).pc = s.pc := rfl
@[simp] theorem State.writeMem_sp (a v : Byte) : (s.writeMem a v).sp = s.sp := rfl
@[simp] theorem State.writeMem_flags (a v : Byte) : (s.writeMem a v).flags = s.flags := rfl
@[simp] theorem State.writeMem_mem (a v : Byte) : (s.writeMem a v).mem = s.mem.put a.toNat v := rfl
@[simp] theorem State.writeMem_status (a v : Byte) : (s.writeMem a v).status = s.status := rfl
@[simp] theorem State.writeMem_cause (a v : Byte) : (s.writeMem a v).cause = s.cause := rfl
@[simp] theorem State.writeMem_causePc (a v : Byte) : (s.writeMem a v).causePc = s.causePc := rfl
@[simp] theorem State.writeMem_params (a v : Byte) : (s.writeMem a v).params = s.params := rfl
@[simp] theorem State.writeMem_reg (a v : Byte) (q : RegIdx) : (s.writeMem a v).reg q = s.reg q := rfl

/-! ### advance -/

@[simp] theorem State.advance_regs (n : Nat) : (s.advance n).regs = s.regs := rfl
@[simp] theorem State.advance_pc (n : Nat) : (s.advance n).pc = s.pc + BitVec.ofNat 8 n := rfl
@[simp] theorem State.advance_sp (n : Nat) : (s.advance n).sp = s.sp := rfl
@[simp] theorem State.advance_flags (n : Nat) : (s.advance n).flags = s.flags := rfl
@[simp] theorem State.advance_mem (n : Nat) : (s.advance n).mem = s.mem := rfl
@[simp] theorem State.advance_status (n : Nat) : (s.advance n).status = s.status := rfl
@[simp] theorem State.advance_cause (n : Nat) : (s.advance n).cause = s.cause := rfl
@[simp] theorem State.advance_causePc (n : Nat) : (s.advance n).causePc = s.causePc := rfl
@[simp] theorem State.advance_params (n : Nat) : (s.advance n).params = s.params := rfl
@[simp] theorem State.advance_reg (n : Nat) (q : RegIdx) : (s.advance n).reg q = s.reg q := rfl
@[simp] theorem State.advance_readMem (n : Nat) (b : Byte) : (s.advance n).readMem b = s.readMem b := rfl

/-! ### writeBack -/

@[simp] theorem State.writeBack_regs (r : RegIdx) (v f : Byte) (n : Nat) : (s.writeBack r v f n).regs = s.regs.set r v := rfl
@[simp] theorem State.writeBack_pc (r : RegIdx) (v f : Byte) (n : Nat) : (s.writeBack r v f n).pc = s.pc + BitVec.ofNat 8 n := rfl
@[simp] theorem State.writeBack_sp (r : RegIdx) (v f : Byte) (n : Nat) : (s.writeBack r v f n).sp = s.sp := rfl
@[simp] theorem State.writeBack_flags (r : RegIdx) (v f : Byte) (n : Nat) : (s.writeBack r v f n).flags = f := rfl
@[simp] theorem State.writeBack_mem (r : RegIdx) (v f : Byte) (n : Nat) : (s.writeBack r v f n).mem = s.mem := rfl
@[simp] theorem State.writeBack_status (r : RegIdx) (v f : Byte) (n : Nat) : (s.writeBack r v f n).status = s.status := rfl
@[simp] theorem State.writeBack_cause (r : RegIdx) (v f : Byte) (n : Nat) : (s.writeBack r v f n).cause = s.cause := rfl
@[simp] theorem State.writeBack_causePc (r : RegIdx) (v f : Byte) (n : Nat) : (s.writeBack r v f n).causePc = s.causePc := rfl
@[simp] theorem State.writeBack_params (r : RegIdx) (v f : Byte) (n : Nat) : (s.writeBack r v f n).params = s.params := rfl
@[simp] theorem State.writeBack_readMem (r : RegIdx) (v f : Byte) (n : Nat) (b : Byte) : (s.writeBack r v f n).readMem b = s.readMem b := rfl

/-! ### endRun -/

@[simp] theorem State.endRun_regs (st : Status) (c : Cause) (n : Nat) : (s.endRun st c n).regs = s.regs := rfl
@[simp] theorem State.endRun_pc (st : Status) (c : Cause) (n : Nat) : (s.endRun st c n).pc = s.pc + BitVec.ofNat 8 n := rfl
@[simp] theorem State.endRun_sp (st : Status) (c : Cause) (n : Nat) : (s.endRun st c n).sp = s.sp := rfl
@[simp] theorem State.endRun_flags (st : Status) (c : Cause) (n : Nat) : (s.endRun st c n).flags = s.flags := rfl
@[simp] theorem State.endRun_mem (st : Status) (c : Cause) (n : Nat) : (s.endRun st c n).mem = s.mem := rfl
@[simp] theorem State.endRun_status (st : Status) (c : Cause) (n : Nat) : (s.endRun st c n).status = st := rfl
@[simp] theorem State.endRun_cause (st : Status) (c : Cause) (n : Nat) : (s.endRun st c n).cause = c := rfl
@[simp] theorem State.endRun_causePc (st : Status) (c : Cause) (n : Nat) : (s.endRun st c n).causePc = s.pc := rfl
@[simp] theorem State.endRun_params (st : Status) (c : Cause) (n : Nat) : (s.endRun st c n).params = s.params := rfl
@[simp] theorem State.endRun_reg (st : Status) (c : Cause) (n : Nat) (q : RegIdx) : (s.endRun st c n).reg q = s.reg q := rfl
@[simp] theorem State.endRun_readMem (st : Status) (c : Cause) (n : Nat) (b : Byte) : (s.endRun st c n).readMem b = s.readMem b := rfl

/-! ### Reading a register after a write -/

theorem State.reg_setReg (r q : RegIdx) (v : Byte) : (s.setReg r v).reg q = if q = r then v else s.reg q := by
  simp only [State.reg, State.setReg, Fin.getElem_fin, Vector.getElem_set, Fin.ext_iff, eq_comm (a := q.val)]

@[simp] theorem State.reg_setReg_self (r : RegIdx) (v : Byte) : (s.setReg r v).reg r = v := by
  simp [State.reg_setReg]

@[simp] theorem State.reg_writeBack (r q : RegIdx) (v f : Byte) (n : Nat) :
    (s.writeBack r v f n).reg q = if q = r then v else s.reg q := State.reg_setReg s r q v

/-! ### The ends of a run are `endRun` -/

theorem State.stop_eq (c : Cause) : s.stop c = s.endRun .halted c 1 := rfl

theorem State.raiseInvalidRegisterIndex_eq (n : Nat) :
    s.raiseInvalidRegisterIndex n = s.endRun .faulted .invalidRegisterIndex n := rfl

/-! ### Reset (spec/70_reset_and_hazards.md R99) -/

@[simp] theorem State.resetWith_reg (p : Params) (q : RegIdx) : (State.resetWith p).reg q = 0#8 := by
  simp [State.reg, State.resetWith]

@[simp] theorem State.resetWith_readMem (p : Params) (a : Byte) : (State.resetWith p).readMem a = 0#8 := rfl
@[simp] theorem State.resetWith_pc (p : Params) : (State.resetWith p).pc = 0#8 := rfl
@[simp] theorem State.resetWith_sp (p : Params) : (State.resetWith p).sp = 0xF0#8 := rfl
@[simp] theorem State.resetWith_flags (p : Params) : (State.resetWith p).flags = 0#8 := rfl
@[simp] theorem State.resetWith_mem (p : Params) : (State.resetWith p).mem = [] := rfl
@[simp] theorem State.resetWith_status (p : Params) : (State.resetWith p).status = .running := rfl
@[simp] theorem State.resetWith_cause (p : Params) : (State.resetWith p).cause = .none := rfl
@[simp] theorem State.resetWith_params (p : Params) : (State.resetWith p).params = p := rfl

end Sys2Proof.Machine
end

