-- ==== Sys2Proof/Laws/Operands.lean ====
section
/-! SUPPORT. Register operands: everything `withReg` and `withRegs` can do (spec/60_exceptions.md R87). -/

namespace Sys2Proof.Machine

theorem regIndex_of_lt {b : Byte} (h : b.toNat < 8) : regIndex b = some ⟨b.toNat, h⟩ := dif_pos h

theorem regIndex_of_ge {b : Byte} (h : 8 ≤ b.toNat) : regIndex b = none := dif_neg (by simpa using h)

@[simp] theorem validIndex_iff (b : Byte) : validIndex b = true ↔ b.toNat < 8 := by simp [validIndex]

@[simp] theorem validIndex_iff_not (b : Byte) : validIndex b = false ↔ 8 ≤ b.toNat := by simp [validIndex]

/-- One register operand: its effect when the byte is in 0..7, the fault otherwise. -/
theorem withReg_cases (len : Nat) (b : Byte) (s : State) (k : RegIdx → State) :
    (∃ h : b.toNat < 8, withReg len b s k = .next (k ⟨b.toNat, h⟩)) ∨
      (8 ≤ b.toNat ∧ withReg len b s k = .next (s.raiseInvalidRegisterIndex len)) := by
  by_cases h : b.toNat < 8
  · exact .inl ⟨h, by simp [withReg, regIndex_of_lt h]⟩
  · exact .inr ⟨by omega, by simp [withReg, regIndex_of_ge (Nat.le_of_not_lt h)]⟩

/-- Two register operands: the effect when both bytes are in 0..7, one fault otherwise. -/
theorem withRegs_cases (len : Nat) (b1 b2 : Byte) (s : State) (k : RegIdx → RegIdx → State) :
    (∃ (h1 : b1.toNat < 8) (h2 : b2.toNat < 8), withRegs len b1 b2 s k = .next (k ⟨b1.toNat, h1⟩ ⟨b2.toNat, h2⟩)) ∨
      ((8 ≤ b1.toNat ∨ 8 ≤ b2.toNat) ∧ withRegs len b1 b2 s k = .next (s.raiseInvalidRegisterIndex len)) := by
  by_cases h1 : b1.toNat < 8
  · by_cases h2 : b2.toNat < 8
    · exact .inl ⟨h1, h2, by simp [withRegs, regIndex_of_lt h1, regIndex_of_lt h2]⟩
    · exact .inr ⟨.inr (by omega), by
        simp [withRegs, regIndex_of_lt h1, regIndex_of_ge (Nat.le_of_not_lt h2)]⟩
  · exact .inr ⟨.inl (by omega), by simp [withRegs, regIndex_of_ge (Nat.le_of_not_lt h1)]⟩

theorem withReg_of_lt {b : Byte} (h : b.toNat < 8) (len : Nat) (s : State) (k : RegIdx → State) :
    withReg len b s k = .next (k ⟨b.toNat, h⟩) := by
  simp [withReg, regIndex_of_lt h]

theorem withRegs_of_lt {b1 b2 : Byte} (h1 : b1.toNat < 8) (h2 : b2.toNat < 8) (len : Nat) (s : State)
    (k : RegIdx → RegIdx → State) : withRegs len b1 b2 s k = .next (k ⟨b1.toNat, h1⟩ ⟨b2.toNat, h2⟩) := by
  simp [withRegs, regIndex_of_lt h1, regIndex_of_lt h2]

theorem withReg_of_ge {b : Byte} (h : 8 ≤ b.toNat) (len : Nat) (s : State) (k : RegIdx → State) :
    withReg len b s k = .next (s.raiseInvalidRegisterIndex len) := by
  simp [withReg, regIndex_of_ge h]

theorem withRegs_of_ge {b1 b2 : Byte} (h : 8 ≤ b1.toNat ∨ 8 ≤ b2.toNat) (len : Nat) (s : State)
    (k : RegIdx → RegIdx → State) : withRegs len b1 b2 s k = .next (s.raiseInvalidRegisterIndex len) := by
  rcases withRegs_cases len b1 b2 s k with ⟨h1, h2, -⟩ | ⟨-, h'⟩
  · omega
  · exact h'

end Sys2Proof.Machine
end

