-- ==== Sys2Proof/Laws/Exec.lean ====
section
/-! SUPPORT. What one instruction can do, said once: every meaning answers a next state, which is either the raised fault
of an ill-formed instruction or one of seven kinds of effect. The provers cite these instead of unfolding `exec`. -/

namespace Sys2Proof.Machine

/-- The register operand or R0 that an instruction writes, as an index byte (spec/10_state.md R14). -/
def destination : Instr → Option Byte
  | .ldi reg _ => some reg
  | .mv destReg _ => some destReg
  | .shl ra => some ra
  | .shr ra => some ra
  | .pop ra => some ra
  | .add _ _ => some 0
  | .sub _ _ => some 0
  | .mul _ _ => some 0
  | .div _ _ => some 0
  | .and _ _ => some 0
  | .or _ _ => some 0
  | .xor _ _ => some 0
  | .nop => none
  | .halt => none
  | .push _ => none
  | .jmp _ => none
  | .jz _ => none
  | .jnz _ => none

/-- The flags byte `f` an instruction that writes a register leaves: SetZN of some byte, then CARRY by ADD and SUB or
OVERFLOW by MUL (spec/10_state.md R21, R23, R24). -/
def FlagsAfter (i : Instr) (s : State) (f : Byte) : Prop :=
  ∃ src, f = setZN src s.flags ∨
    (((∃ ra rb, i = .add ra rb) ∨ ∃ ra rb, i = .sub ra rb) ∧ ∃ b, f = writeFlag .carry b (setZN src s.flags)) ∨
    ((∃ ra rb, i = .mul ra rb) ∧ ∃ b, f = writeFlag .overflow b (setZN src s.flags))

theorem FlagsAfter.low {i : Instr} {s : State} {f : Byte} (h : FlagsAfter i s f) :
    f &&& 0x0F#8 = s.flags &&& 0x0F#8 := by
  obtain ⟨src, rfl | ⟨-, b, rfl⟩ | ⟨-, b, rfl⟩⟩ := h <;> simp

/-- The effect of an instruction that does not raise. -/
inductive Effect (i : Instr) (s : State) : State → Prop where
  /-- LDI, MV, the ALU instructions (DIV by a divisor that is not 0) and the shifts: the destination register and the
  flags byte, `pc` past the instruction. -/
  | wrote (r : RegIdx) (v f : Byte) (hd : ∃ d, destination i = some d ∧ d.toNat = r.val) (hpop : ∀ ra, i ≠ .pop ra)
      (hf : FlagsAfter i s f) : Effect i s (s.writeBack r v f i.length)
  /-- DIV by zero: OVERFLOW is set, `pc` past the instruction. -/
  | recovered (hi : ∃ ra rb, i = .div ra rb) :
      Effect i s ((s.setFlags (writeFlag .overflow true s.flags)).advance i.length)
  /-- NOP, and JZ and JNZ not taken: `pc` past the instruction. -/
  | passed (hi : i = .nop ∨ (∃ addr, i = .jz addr ∧ flagBit .zero s.flags = false) ∨
      ∃ addr, i = .jnz addr ∧ flagBit .zero s.flags = true) : Effect i s (s.advance i.length)
  /-- JMP, and JZ and JNZ taken: `pc` at the target. -/
  | jumped (addr : Byte) (hi : i = .jmp addr ∨ (i = .jz addr ∧ flagBit .zero s.flags = true) ∨
      (i = .jnz addr ∧ flagBit .zero s.flags = false)) : Effect i s (s.setPc addr)
  /-- PUSH. -/
  | pushed (r : RegIdx) (hi : ∃ ra, i = .push ra ∧ ra.toNat = r.val) :
      Effect i s (((s.setSp (pushAddr s)).writeMem (pushAddr s) (s.reg r)).advance i.length)
  /-- POP. -/
  | popped (r : RegIdx) (hi : ∃ ra, i = .pop ra ∧ ra.toNat = r.val) :
      Effect i s ((s.setSp (s.sp + 1)).writeBack r (s.readMem s.sp) (setZN (s.readMem s.sp) s.flags) i.length)
  /-- HALT. -/
  | stopped (hi : i = .halt) : Effect i s (s.stop .haltOpcode)

/-- Every instruction answers a next state; an ill-formed one raises InvalidRegisterIndex, a well-formed one has one of
these effects. -/
theorem exec_cases (i : Instr) (s : State) :
    ∃ t, exec i s = .next t ∧
      (i.wellFormed = false ∧ t = s.raiseInvalidRegisterIndex i.length ∨ i.wellFormed = true ∧ Effect i s t) := by
  cases i with
  | nop => exact ⟨_, rfl, .inr ⟨rfl, .passed (.inl rfl)⟩⟩
  | halt => exact ⟨_, rfl, .inr ⟨rfl, .stopped rfl⟩⟩
  | jmp a => exact ⟨_, rfl, .inr ⟨rfl, .jumped a (.inl rfl)⟩⟩
  | jz a =>
    refine ⟨_, rfl, .inr ⟨rfl, ?_⟩⟩
    cases h : flagBit .zero s.flags
    · exact .passed (.inr (.inl ⟨a, rfl, h⟩))
    · exact .jumped a (.inr (.inl ⟨rfl, h⟩))
  | jnz a =>
    refine ⟨_, rfl, .inr ⟨rfl, ?_⟩⟩
    cases h : flagBit .zero s.flags
    · exact .jumped a (.inr (.inr ⟨rfl, h⟩))
    · exact .passed (.inr (.inr ⟨a, rfl, h⟩))
  | ldi a b =>
    rcases withReg_cases 3 a s fun r => s.writeBack r b (setZN b s.flags) 3 with ⟨h, e⟩ | ⟨h, e⟩
    · exact ⟨_, e, .inr ⟨by simp [Instr.wellFormed, Instr.regOperands, h],
        .wrote _ _ _ ⟨_, rfl, rfl⟩ (by simp) ⟨_, .inl rfl⟩⟩⟩
    · exact ⟨_, e, .inl ⟨by simp [Instr.wellFormed, Instr.regOperands, h], rfl⟩⟩
  | shl a | shr a =>
    rcases withReg_cases 2 a s _ with ⟨h, e⟩ | ⟨h, e⟩
    · exact ⟨_, e, .inr ⟨by simp [Instr.wellFormed, Instr.regOperands, h],
        .wrote _ _ _ ⟨_, rfl, rfl⟩ (by simp) ⟨_, .inl rfl⟩⟩⟩
    · exact ⟨_, e, .inl ⟨by simp [Instr.wellFormed, Instr.regOperands, h], rfl⟩⟩
  | push a =>
    rcases withReg_cases 2 a s _ with ⟨h, e⟩ | ⟨h, e⟩
    · exact ⟨_, e, .inr ⟨by simp [Instr.wellFormed, Instr.regOperands, h], .pushed _ ⟨_, rfl, rfl⟩⟩⟩
    · exact ⟨_, e, .inl ⟨by simp [Instr.wellFormed, Instr.regOperands, h], rfl⟩⟩
  | pop a =>
    rcases withReg_cases 2 a s _ with ⟨h, e⟩ | ⟨h, e⟩
    · exact ⟨_, e, .inr ⟨by simp [Instr.wellFormed, Instr.regOperands, h], .popped _ ⟨_, rfl, rfl⟩⟩⟩
    · exact ⟨_, e, .inl ⟨by simp [Instr.wellFormed, Instr.regOperands, h], rfl⟩⟩
  | div a b =>
    rcases withRegs_cases 3 a b s _ with ⟨h1, h2, e⟩ | ⟨h, e⟩
    · refine ⟨_, e, .inr ⟨by simp [Instr.wellFormed, Instr.regOperands, h1, h2], ?_⟩⟩
      split
      · exact .recovered ⟨_, _, rfl⟩
      · exact .wrote _ _ _ ⟨_, rfl, rfl⟩ (by simp) ⟨_, .inl rfl⟩
    · exact ⟨_, e, .inl ⟨by simp [Instr.wellFormed, Instr.regOperands]; omega, rfl⟩⟩
  | add a b | sub a b =>
    rcases withRegs_cases 3 a b s _ with ⟨h1, h2, e⟩ | ⟨h, e⟩
    · exact ⟨_, e, .inr ⟨by simp [Instr.wellFormed, Instr.regOperands, h1, h2],
        .wrote _ _ _ ⟨_, rfl, rfl⟩ (by simp) ⟨_, .inr (.inl ⟨by simp, _, rfl⟩)⟩⟩⟩
    · exact ⟨_, e, .inl ⟨by simp [Instr.wellFormed, Instr.regOperands]; omega, rfl⟩⟩
  | mul a b =>
    rcases withRegs_cases 3 a b s _ with ⟨h1, h2, e⟩ | ⟨h, e⟩
    · exact ⟨_, e, .inr ⟨by simp [Instr.wellFormed, Instr.regOperands, h1, h2],
        .wrote _ _ _ ⟨_, rfl, rfl⟩ (by simp) ⟨_, .inr (.inr ⟨⟨_, _, rfl⟩, _, rfl⟩)⟩⟩⟩
    · exact ⟨_, e, .inl ⟨by simp [Instr.wellFormed, Instr.regOperands]; omega, rfl⟩⟩
  | mv a b | and a b | or a b | xor a b =>
    rcases withRegs_cases 3 a b s _ with ⟨h1, h2, e⟩ | ⟨h, e⟩
    · exact ⟨_, e, .inr ⟨by simp [Instr.wellFormed, Instr.regOperands, h1, h2],
        .wrote _ _ _ ⟨_, rfl, rfl⟩ (by simp) ⟨_, .inl rfl⟩⟩⟩
    · exact ⟨_, e, .inl ⟨by simp [Instr.wellFormed, Instr.regOperands]; omega, rfl⟩⟩

/-- What `exec_cases` says of a known next state. -/
theorem exec_next {i : Instr} {s t : State} (h : exec i s = .next t) :
    i.wellFormed = false ∧ t = s.raiseInvalidRegisterIndex i.length ∨ i.wellFormed = true ∧ Effect i s t := by
  obtain ⟨t', ht, hc⟩ := exec_cases i s
  rw [ht] at h
  cases h
  exact hc

end Sys2Proof.Machine
end

