-- ==== Sys2Proof/Laws/Memory.lean ====
section
/-! SUPPORT. Memory: read after write, the canonical form is kept by every operation and makes equal memories equal data. -/

namespace Sys2Proof.Machine

/-! ### The canonical form, opened once -/

@[simp] theorem Memory.wfFrom_nil (lo : Nat) : Memory.wfFrom lo [] = true := rfl

theorem Memory.wfFrom_cons {lo b : Nat} {w : Byte} {m : Memory} :
    Memory.wfFrom lo ((b, w) :: m) = true ↔
      lo ≤ b ∧ b < Config.memSize ∧ w ≠ unlistedByte ∧ m.wfFrom (b + 1) = true := by
  simp only [Memory.wfFrom, Bool.and_eq_true, decide_eq_true_eq, and_assoc]

theorem Memory.wfFrom_mono {lo lo' : Nat} {m : Memory} (h : m.wfFrom lo = true) (hle : lo' ≤ lo) :
    m.wfFrom lo' = true := by
  cases m with
  | nil => rfl
  | cons c rest =>
    rw [Memory.wfFrom_cons] at h ⊢
    exact ⟨hle.trans h.1, h.2⟩

theorem Memory.get_below {lo a : Nat} {m : Memory} (h : m.wfFrom lo = true) (ha : a < lo) :
    m.get a = unlistedByte := by
  induction m generalizing lo with
  | nil => rfl
  | cons c rest ih =>
    obtain ⟨h1, -, -, h4⟩ := Memory.wfFrom_cons.mp h
    simp only [Memory.get, if_neg (show ¬ a = c.1 by omega)]
    exact ih h4 (by omega)

/-! ### Reading after writing -/

/-- Reading after a write to a canonical memory: the written address reads as written, every other as before
(spec/20_memory.md R35, R37). -/
theorem Memory.get_put {lo : Nat} {m : Memory} (h : m.wfFrom lo = true) (a b : Nat) (v : Byte) :
    (m.put a v).get b = if b = a then v else m.get b := by
  induction m generalizing lo with
  | nil =>
    unfold Memory.put
    split_ifs with hv hb <;> simp_all [Memory.get]
  | cons c rest ih =>
    obtain ⟨k, w⟩ := c
    obtain ⟨-, -, -, h4⟩ := Memory.wfFrom_cons.mp h
    have hlow : ∀ x, x ≤ k → Memory.get rest x = unlistedByte := fun x hx => Memory.get_below h4 (by omega)
    unfold Memory.put
    by_cases hak : a < k
    · have := hlow a hak.le
      grind [Memory.get]
    · by_cases hak' : a = k
      · have := hlow a hak'.le
        grind [Memory.get]
      · simp only [hak, hak', if_false, Memory.get, ih h4]
        grind

/-- A write to an address of the space keeps the canonical form. -/
theorem Memory.put_wfFrom {lo a : Nat} {m : Memory} (h : m.wfFrom lo = true) (v : Byte) (hlo : lo ≤ a)
    (ha : a < Config.memSize) : (m.put a v).wfFrom lo = true := by
  induction m generalizing lo with
  | nil =>
    unfold Memory.put
    split_ifs with hv
    · rfl
    · exact Memory.wfFrom_cons.mpr ⟨hlo, ha, hv, rfl⟩
  | cons c rest ih =>
    obtain ⟨k, w⟩ := c
    obtain ⟨h1, h2, h3, h4⟩ := Memory.wfFrom_cons.mp h
    unfold Memory.put
    split_ifs with hak hv hak' hv
    · exact h
    · exact Memory.wfFrom_cons.mpr ⟨hlo, ha, hv, Memory.wfFrom_cons.mpr ⟨hak, h2, h3, h4⟩⟩
    · exact Memory.wfFrom_mono h4 (by omega)
    · exact Memory.wfFrom_cons.mpr ⟨hlo, ha, hv, hak' ▸ h4⟩
    · exact Memory.wfFrom_cons.mpr ⟨h1, h2, h3, ih h4 (by omega)⟩

/-- A byte address is an address of the space (spec/20_memory.md R34). -/
theorem byte_lt_memSize (a : Byte) : a.toNat < Config.memSize := a.isLt

/-- Every store keeps the canonical form. -/
theorem Memory.put_wf {m : Memory} (h : m.wf = true) (a v : Byte) : (m.put a.toNat v).wf = true :=
  Memory.put_wfFrom h v (Nat.zero_le _) (byte_lt_memSize a)

@[simp] theorem Memory.wf_nil : Memory.wf [] = true := rfl

theorem State.writeMem_wf {s : State} (h : s.mem.wf = true) (a v : Byte) : (s.writeMem a v).mem.wf = true :=
  Memory.put_wf h a v

/-- Storing several bytes keeps the canonical form. -/
theorem State.writeBytes_wf {s : State} (h : s.mem.wf = true) (a : Byte) (bs : List Byte) :
    (s.writeBytes a bs).mem.wf = true := by
  induction bs generalizing a s with
  | nil => exact h
  | cons b bs ih => exact ih (State.writeMem_wf h a b) (a + 1)

/-- Everything `writeMem` can do to a read (spec/20_memory.md R35, R37). -/
theorem State.readMem_writeMem {s : State} (h : s.mem.wf = true) (a b v : Byte) :
    (s.writeMem a v).readMem b = if b = a then v else s.readMem b := by
  simp only [State.readMem, State.writeMem, Memory.get_put h, BitVec.toNat_inj]

/-- A read away from a store does not depend on the canonical form. -/
theorem Memory.get_put_ne (m : Memory) {a b : Nat} (v : Byte) (hne : b ≠ a) : (m.put a v).get b = m.get b := by
  induction m with
  | nil => unfold Memory.put; split_ifs <;> simp [Memory.get, hne]
  | cons c rest ih =>
    obtain ⟨k, w⟩ := c
    unfold Memory.put
    split_ifs <;> simp_all [Memory.get]

theorem State.readMem_writeMem_ne (s : State) {a b : Byte} (v : Byte) (hne : b ≠ a) :
    (s.writeMem a v).readMem b = s.readMem b :=
  Memory.get_put_ne _ _ (fun h => hne (BitVec.toNat_inj.mp h))

/-- Reading after storing at most 256 bytes from `a` on: a stored byte where one was stored, else as before; the
addresses wrap. -/
theorem State.readMem_writeBytes (bs : List Byte) (a : Byte) (s : State) (hw : s.mem.wf = true)
    (hl : bs.length ≤ Config.memSize) (b : Byte) :
    (s.writeBytes a bs).readMem b = if h : (b - a).toNat < bs.length then bs[(b - a).toNat] else s.readMem b := by
  induction bs generalizing a s with
  | nil => simp [State.writeBytes]
  | cons x xs ih =>
    simp only [List.length_cons, Config.memSize] at hl
    simp only [State.writeBytes]
    rw [ih _ _ (State.writeMem_wf hw a x) (by simp only [Config.memSize]; omega), State.readMem_writeMem hw]
    by_cases hb : b = a
    · subst hb
      have : (b - (b + 1)).toNat = 255 := by
        have : b - (b + 1) = 255#8 := by bv_omega
        rw [this]; rfl
      rw [dif_neg (by omega)]
      simp
    · have h1 : (b - a).toNat = (b - (a + 1)).toNat + 1 := by
        have : b.toNat ≠ a.toNat := fun h => hb (BitVec.toNat_inj.mp h)
        bv_omega
      simp [hb, h1]

/-! ### Storing several bytes changes memory alone -/

@[simp] theorem State.writeBytes_regs (s : State) (a : Byte) (bs : List Byte) : (s.writeBytes a bs).regs = s.regs := by
  induction bs generalizing a s with
  | nil => rfl
  | cons b bs ih => exact ih _ _

@[simp] theorem State.writeBytes_pc (s : State) (a : Byte) (bs : List Byte) : (s.writeBytes a bs).pc = s.pc := by
  induction bs generalizing a s with
  | nil => rfl
  | cons b bs ih => exact ih _ _

@[simp] theorem State.writeBytes_sp (s : State) (a : Byte) (bs : List Byte) : (s.writeBytes a bs).sp = s.sp := by
  induction bs generalizing a s with
  | nil => rfl
  | cons b bs ih => exact ih _ _

@[simp] theorem State.writeBytes_flags (s : State) (a : Byte) (bs : List Byte) :
    (s.writeBytes a bs).flags = s.flags := by
  induction bs generalizing a s with
  | nil => rfl
  | cons b bs ih => exact ih _ _

@[simp] theorem State.writeBytes_status (s : State) (a : Byte) (bs : List Byte) :
    (s.writeBytes a bs).status = s.status := by
  induction bs generalizing a s with
  | nil => rfl
  | cons b bs ih => exact ih _ _

@[simp] theorem State.writeBytes_cause (s : State) (a : Byte) (bs : List Byte) :
    (s.writeBytes a bs).cause = s.cause := by
  induction bs generalizing a s with
  | nil => rfl
  | cons b bs ih => exact ih _ _

@[simp] theorem State.writeBytes_causePc (s : State) (a : Byte) (bs : List Byte) :
    (s.writeBytes a bs).causePc = s.causePc := by
  induction bs generalizing a s with
  | nil => rfl
  | cons b bs ih => exact ih _ _

@[simp] theorem State.writeBytes_params (s : State) (a : Byte) (bs : List Byte) :
    (s.writeBytes a bs).params = s.params := by
  induction bs generalizing a s with
  | nil => rfl
  | cons b bs ih => exact ih _ _

end Sys2Proof.Machine
end

