-- ==== Sys2Proof/Laws/PerInstr.lean ====
section
/-! SUPPORT. Statements made per instruction (LAWS.json). EncodingShape: an encoding is as long as the length its
opcode decides (spec/30_encoding.md R45), starts with an assigned opcode (R47), and carries the instruction's register
operands, in order, from its second byte on (R46). -/

namespace Sys2Proof.Laws

/-- The shape of an instruction's encoding. -/
def EncodingShape.Statement (i : Instr) : Prop :=
  (encode i).length = i.length ∧ (∃ op operands, encode i = op :: operands ∧ op ∈ assignedOpcodes ∧
    i.regOperands <+: operands)

theorem EncodingShape.nop : EncodingShape.Statement .nop := ⟨rfl, _, _, rfl, by decide, ⟨[], rfl⟩⟩
theorem EncodingShape.halt : EncodingShape.Statement .halt := ⟨rfl, _, _, rfl, by decide, ⟨[], rfl⟩⟩
theorem EncodingShape.ldi (reg imm8 : Byte) : EncodingShape.Statement (.ldi reg imm8) :=
  ⟨rfl, _, _, rfl, by decide, ⟨[imm8], rfl⟩⟩
theorem EncodingShape.mv (destReg srcReg : Byte) : EncodingShape.Statement (.mv destReg srcReg) :=
  ⟨rfl, _, _, rfl, by decide, ⟨[], rfl⟩⟩
theorem EncodingShape.add (ra rb : Byte) : EncodingShape.Statement (.add ra rb) := ⟨rfl, _, _, rfl, by decide, ⟨[], rfl⟩⟩
theorem EncodingShape.sub (ra rb : Byte) : EncodingShape.Statement (.sub ra rb) := ⟨rfl, _, _, rfl, by decide, ⟨[], rfl⟩⟩
theorem EncodingShape.mul (ra rb : Byte) : EncodingShape.Statement (.mul ra rb) := ⟨rfl, _, _, rfl, by decide, ⟨[], rfl⟩⟩
theorem EncodingShape.div (ra rb : Byte) : EncodingShape.Statement (.div ra rb) := ⟨rfl, _, _, rfl, by decide, ⟨[], rfl⟩⟩
theorem EncodingShape.and (ra rb : Byte) : EncodingShape.Statement (.and ra rb) := ⟨rfl, _, _, rfl, by decide, ⟨[], rfl⟩⟩
theorem EncodingShape.or (ra rb : Byte) : EncodingShape.Statement (.or ra rb) := ⟨rfl, _, _, rfl, by decide, ⟨[], rfl⟩⟩
theorem EncodingShape.xor (ra rb : Byte) : EncodingShape.Statement (.xor ra rb) := ⟨rfl, _, _, rfl, by decide, ⟨[], rfl⟩⟩
theorem EncodingShape.shl (ra : Byte) : EncodingShape.Statement (.shl ra) := ⟨rfl, _, _, rfl, by decide, ⟨[], rfl⟩⟩
theorem EncodingShape.shr (ra : Byte) : EncodingShape.Statement (.shr ra) := ⟨rfl, _, _, rfl, by decide, ⟨[], rfl⟩⟩
theorem EncodingShape.push (ra : Byte) : EncodingShape.Statement (.push ra) := ⟨rfl, _, _, rfl, by decide, ⟨[], rfl⟩⟩
theorem EncodingShape.pop (ra : Byte) : EncodingShape.Statement (.pop ra) := ⟨rfl, _, _, rfl, by decide, ⟨[], rfl⟩⟩
theorem EncodingShape.jmp (addr : Byte) : EncodingShape.Statement (.jmp addr) :=
  ⟨rfl, _, _, rfl, by decide, ⟨[addr], rfl⟩⟩
theorem EncodingShape.jz (addr : Byte) : EncodingShape.Statement (.jz addr) :=
  ⟨rfl, _, _, rfl, by decide, ⟨[addr], rfl⟩⟩
theorem EncodingShape.jnz (addr : Byte) : EncodingShape.Statement (.jnz addr) :=
  ⟨rfl, _, _, rfl, by decide, ⟨[addr], rfl⟩⟩

end Sys2Proof.Laws
end

