-- ==== Sys2Proof/Laws/Step.lean ====
section
/-! SUPPORT. What one step can do (spec/40_engine.md R59): nothing on a stopped core, otherwise one instruction or the
halt of an unrecognized opcode. -/

namespace Sys2Proof.Machine

/-- The bytes the decoder is offered are those at `pc`, `pc +8 1` and `pc +8 2` (spec/30_encoding.md R46, R49). -/
theorem instrBytes_eq (s : State) :
    s.instrBytes = [s.readMem s.pc, s.readMem (s.pc + 1), s.readMem (s.pc + 2)] := by
  have h : s.pc + 1#8 + 1#8 = s.pc + 2 := by rw [BitVec.add_assoc]; rfl
  simp only [State.instrBytes, State.fetchMany, State.fetch, State.advance_readMem, State.advance_pc]
  simp only [h, BitVec.ofNat_eq_ofNat]

/-- `n` fetches move `pc` by `n` and nothing else (spec/00_scope.md R9). -/
theorem fetchMany_snd (n : Nat) (s : State) : (s.fetchMany n).2 = s.advance n := by
  induction n generalizing s with
  | zero => simp [State.fetchMany, State.advance, State.setPc]
  | succ n ih =>
    simp only [State.fetchMany, State.fetch, ih]
    simp [State.advance, State.setPc, BitVec.add_assoc, BitVec.ofNat_add, BitVec.add_comm 1#8]

theorem step_running {s : State} (h : s.status = .running) :
    step s = match decode s.instrBytes with
      | .instr i => exec i s
      | .rejected _ => execUnrecognized s := by
  cases s; cases h; rfl

theorem step_stopped {s : State} (h : s.status ≠ .running) (t : State) : step s ≠ .next t := by
  unfold step
  cases hs : s.status <;> simp_all

/-- Everything a step that answers a next state can be. -/
theorem step_cases {s t : State} (h : step s = .next t) :
    s.status = .running ∧
      ((∃ i tail, encode i ++ tail = [s.readMem s.pc, s.readMem (s.pc + 1), s.readMem (s.pc + 2)] ∧
          exec i s = .next t) ∨
        (s.readMem s.pc ∉ assignedOpcodes ∧ t = s.stop .unrecognizedOpcode)) := by
  by_cases hr : s.status = .running
  · refine ⟨hr, ?_⟩
    rw [step_running hr, instrBytes_eq] at h
    by_cases ha : s.readMem s.pc ∈ assignedOpcodes
    · obtain ⟨i, tail, hd, he⟩ := decode_assigned ha (s.readMem (s.pc + 1)) (s.readMem (s.pc + 2)) []
      rw [hd] at h
      exact .inl ⟨i, tail, he, h⟩
    · rw [decode_unassigned ha] at h
      simp only [execUnrecognized, Host.Outcome.next.injEq] at h
      exact .inr ⟨ha, h.symm⟩
  · exact absurd h (step_stopped hr t)

/-- Bytes that start with an encoding at `pc` are that encoding's bytes (spec/30_encoding.md R46). -/
theorem bytesAt_of_append {s : State} {i : Instr} {tail : List Byte}
    (h : encode i ++ tail = [s.readMem s.pc, s.readMem (s.pc + 1), s.readMem (s.pc + 2)]) :
    BytesAt s s.pc (encode i) := by
  intro k hk
  have h1 : (encode i ++ tail)[k]? = some (encode i)[k] := by
    rw [List.getElem?_append_left hk]; simp
  rw [h] at h1
  have h2 : k < 3 := by
    have := i.length_le
    rw [encode_length] at hk
    simp only [Config.maxInstrLength] at this
    omega
  obtain rfl | rfl | rfl : k = 0 ∨ k = 1 ∨ k = 2 := by omega
  all_goals simpa using h1

/-- The decoder reads the instruction whose encoding stands at `pc` (spec/30_encoding.md R46, R47). -/
theorem decode_of_bytesAt {s : State} {i : Instr} (h : BytesAt s s.pc (encode i)) :
    decode [s.readMem s.pc, s.readMem (s.pc + 1), s.readMem (s.pc + 2)] = .instr i := by
  have h0 := h 0
  have h1 := h 1
  have h2 := h 2
  cases i <;> simp [encode] at h0 h1 h2 <;> simp [*] <;> rfl

end Sys2Proof.Machine
end

