-- ==== Sys2Proof/Tests/Slice0.lean ====
section
/-! SUPPORT. The model's own tests: well-formedness, the decoding of words written out from spec/30_encoding.md R46 and
R47, single steps with the expected values of spec/95_test_vectors.md, and a witness for every statement that has
hypotheses. -/

namespace Sys2Proof.Machine.Tests

/-- The reset state with `bytes` at `a` and `pc` there. -/
def place (a : Byte) (bytes : List Byte) : State := (State.reset.writeBytes a bytes).setPc a

/-- The same with FLAG_MODE and RA0_READ given. -/
def placeIn (p : Params) (bytes : List Byte) : State := (State.resetWith p).writeBytes 0 bytes

/-- FLAG_MODE = CORRECTED. -/
def corrected : Params := { flagMode := .corrected, ra0Read := .beforeWrite }

/-- RA0_READ = AFTER_WRITE in REFERENCE mode. -/
def afterWrite : Params := { flagMode := .reference, ra0Read := .afterWrite }

/-- The outcome is a next state that passes the check. -/
def nextMeets (o : Host.Outcome State Fault Refusal) (check : State → Bool) : Bool :=
  match o with
  | .next t => check t
  | .fault _ => false
  | .refused _ => false

theorem nextMeets_iff {o : Host.Outcome State Fault Refusal} {check : State → Bool} :
    nextMeets o check = true ↔ ∃ t, o = .next t ∧ check t = true := by
  cases o <;> simp [nextMeets]

/-! ### Well-formedness: a term with each bad operand is refused -/

theorem test_wellFormed_accepts : (Instr.mv 7 0).wellFormed = true := by decide
theorem test_wellFormed_refuses_one_operand : (Instr.push 8).wellFormed = false := by decide
theorem test_wellFormed_refuses_first : (Instr.add 8 0).wellFormed = false := by decide
theorem test_wellFormed_refuses_second : (Instr.add 0 255).wellFormed = false := by decide
theorem test_wellFormed_ignores_immediate : (Instr.ldi 7 255).wellFormed = true := by decide

/-! ### Decoding: every constructor from bytes written out from R46 and R47 -/

theorem test_decode_nop : decode [0x00#8] = .instr .nop := by decide
theorem test_decode_halt : decode [0x10#8] = .instr .halt := by decide
theorem test_decode_ldi : decode [0x14#8, 0x01#8, 0x05#8] = .instr (.ldi 1 5) := by decide
theorem test_decode_mv : decode [0x18#8, 0x04#8, 0x00#8] = .instr (.mv 4 0) := by decide
theorem test_decode_add : decode [0x20#8, 0x01#8, 0x02#8] = .instr (.add 1 2) := by decide
theorem test_decode_sub : decode [0x30#8, 0x01#8, 0x02#8] = .instr (.sub 1 2) := by decide
theorem test_decode_mul : decode [0x40#8, 0x03#8, 0x04#8] = .instr (.mul 3 4) := by decide
theorem test_decode_div : decode [0x50#8, 0x00#8, 0x01#8] = .instr (.div 0 1) := by decide
theorem test_decode_and : decode [0x60#8, 0x01#8, 0x02#8] = .instr (.and 1 2) := by decide
theorem test_decode_or : decode [0x70#8, 0x01#8, 0x02#8] = .instr (.or 1 2) := by decide
theorem test_decode_xor : decode [0x80#8, 0x02#8, 0x03#8] = .instr (.xor 2 3) := by decide
theorem test_decode_shl : decode [0x90#8, 0x01#8] = .instr (.shl 1) := by decide
theorem test_decode_shr : decode [0xA0#8, 0x01#8] = .instr (.shr 1) := by decide
theorem test_decode_push : decode [0xB0#8, 0x05#8] = .instr (.push 5) := by decide
theorem test_decode_pop : decode [0xC0#8, 0x01#8] = .instr (.pop 1) := by decide
theorem test_decode_jmp : decode [0xD0#8, 0xE8#8] = .instr (.jmp 0xE8) := by decide
theorem test_decode_jz : decode [0xE0#8, 0x06#8] = .instr (.jz 6) := by decide
theorem test_decode_jnz : decode [0xF0#8, 0x06#8] = .instr (.jnz 6) := by decide
/-- Bytes next to defined ones (95_test_vectors.md section 2.8) are rejected by name. -/
theorem test_decode_neighbours : ∀ b ∈ [0x01#8, 0x0F#8, 0x11#8, 0x12#8, 0x13#8, 0x15#8, 0x17#8, 0x19#8, 0x1F#8, 0x21#8,
    0x2F#8, 0xB1#8, 0xC8#8, 0xD1#8, 0xE1#8, 0xF1#8, 0xFF#8], decode [b, 0, 0] = .rejected (.unrecognizedOpcode b) := by
  decide
theorem test_decode_missing_operand : decode [0x20#8, 0x01#8] = .rejected (.missingOperand 0x20#8) := by decide
/-- The table's numbering: the second byte of `LDI R1, 5` is bits 15..8, the third bits 23..16. -/
theorem test_decodeTableWord : decodeTableWord 24 0x050114 = some (.ldi 1 5) := by decide
theorem test_decodeTableWord_short : decodeTableWord 8 0xB0 = some (.push 0) := by decide

/-! ### Single steps: the vectors of spec/95_test_vectors.md section 2, by their numbers -/

theorem test_nop_wraps_V2 : nextMeets (step (place 0xFF [0x00#8])) (fun t => t.pc == 0x00#8) = true := by decide
theorem test_halt_V3 : nextMeets (step (place 0x12 [0x10#8]))
    (fun t => t.status == .halted && t.cause.code == 1 && t.causePc == 0x12#8 && t.pc == 0x13#8) = true := by decide
theorem test_unrecognized_V6 : nextMeets (step (place 0x00 [0x15#8, 0x01#8, 0x02#8]))
    (fun t => t.status == .halted && t.cause.code == 2 && t.pc == 0x01#8) = true := by decide
theorem test_unrecognized_wraps_V8 : nextMeets (step ((place 0xFF [0x02#8]).setFlags 0x70#8))
    (fun t => t.causePc == 0xFF#8 && t.flags == 0x70#8 && t.pc == 0x00#8) = true := by decide
theorem test_ldi_straddles_V12 : nextMeets (step (place 0xFE [0x14#8, 0x01#8, 0x7F#8]))
    (fun t => t.reg 1 == 0x7F#8 && t.flags == 0x00#8 && t.pc == 0x01#8) = true := by decide
theorem test_ldi_faults_V14 : nextMeets (step ((place 0x00 [0x14#8, 0xFF#8, 0x00#8]).setReg 7 0x11#8))
    (fun t => t.status == .faulted && t.cause.code == 3 && t.pc == 0x03#8 && t.reg 7 == 0x11#8) = true := by decide
theorem test_mv_reference_V15 : nextMeets (step ((place 0x00 [0x18#8, 0x01#8, 0x00#8]).setReg 0 0x80#8))
    (fun t => t.reg 1 == 0x80#8 && t.flags == 0x80#8) = true := by decide
theorem test_mv_corrected_V16 : nextMeets (step ((placeIn corrected [0x18#8, 0x01#8, 0x00#8]).setReg 0 0x80#8))
    (fun t => t.reg 1 == 0x80#8 && t.flags == 0x10#8) = true := by decide
theorem test_add_wraps_V23 :
    nextMeets (step (((place 0x00 [0x20#8, 0x01#8, 0x02#8]).setReg 1 0xFF#8).setReg 2 0x01#8))
      (fun t => t.reg 0 == 0x00#8 && t.flags == 0xC0#8 && t.pc == 0x03#8) = true := by decide
theorem test_add_reads_first_V25 : nextMeets (step ((place 0x00 [0x20#8, 0x00#8, 0x00#8]).setReg 0 0x81#8))
    (fun t => t.reg 0 == 0x02#8 && t.flags == 0x40#8) = true := by decide
theorem test_sub_borrows_V28 : nextMeets (step ((place 0x00 [0x30#8, 0x01#8, 0x02#8]).setReg 2 0x01#8))
    (fun t => t.reg 0 == 0xFF#8 && t.flags == 0x50#8) = true := by decide
theorem test_sub_order_V31 :
    nextMeets (step ((((place 0x00 [0x30#8, 0x02#8, 0x01#8]).setReg 1 0x10#8).setReg 2 0x0F#8).setFlags 0x20#8))
      (fun t => t.reg 0 == 0xFF#8 && t.flags == 0x70#8) = true := by decide
theorem test_mul_overflows_V36 :
    nextMeets (step (((place 0x00 [0x40#8, 0x01#8, 0x02#8]).setReg 1 0xFF#8).setReg 2 0xFF#8))
      (fun t => t.reg 0 == 0x01#8 && t.flags == 0x30#8) = true := by decide
theorem test_mul_afterWrite_V40 :
    nextMeets (step (((placeIn afterWrite [0x40#8, 0x00#8, 0x01#8]).setReg 0 0x80#8).setReg 1 0x02#8))
      (fun t => t.reg 0 == 0x00#8 && t.flags == 0xA0#8) = true := by decide
theorem test_div_by_zero_V47 :
    nextMeets (step ((((place 0x00 [0x50#8, 0x01#8, 0x02#8]).setReg 0 0x33#8).setReg 1 0x05#8).setFlags 0x90#8))
      (fun t => t.reg 0 == 0x33#8 && t.flags == 0xB0#8 && t.pc == 0x03#8) = true := by decide
theorem test_div_keeps_overflow_V43 :
    nextMeets (step ((((place 0x00 [0x50#8, 0x01#8, 0x02#8]).setReg 1 0xFF#8).setReg 2 0x10#8).setFlags 0x20#8))
      (fun t => t.reg 0 == 0x0F#8 && t.flags == 0x20#8) = true := by decide
theorem test_and_beforeWrite_V54 :
    nextMeets (step (((place 0x00 [0x60#8, 0x00#8, 0x01#8]).setReg 0 0x80#8).setReg 1 0x0F#8))
      (fun t => t.reg 0 == 0x00#8 && t.flags == 0x10#8) = true := by decide
theorem test_and_afterWrite_V55 :
    nextMeets (step (((placeIn afterWrite [0x60#8, 0x00#8, 0x01#8]).setReg 0 0x80#8).setReg 1 0x0F#8))
      (fun t => t.reg 0 == 0x00#8 && t.flags == 0x80#8) = true := by decide
theorem test_or_reference_V57 : nextMeets (step ((place 0x00 [0x70#8, 0x01#8, 0x02#8]).setReg 2 0x80#8))
    (fun t => t.reg 0 == 0x80#8 && t.flags == 0x80#8) = true := by decide
theorem test_or_corrected_V58 : nextMeets (step ((placeIn corrected [0x70#8, 0x01#8, 0x02#8]).setReg 2 0x80#8))
    (fun t => t.reg 0 == 0x80#8 && t.flags == 0x10#8) = true := by decide
theorem test_xor_reference_V60 :
    nextMeets (step ((((place 0x00 [0x80#8, 0x02#8, 0x02#8]).setReg 0 0x44#8).setReg 2 0x20#8).setFlags 0x60#8))
      (fun t => t.reg 0 == 0x00#8 && t.flags == 0x60#8) = true := by decide
theorem test_xor_corrected_V61 :
    nextMeets (step ((((placeIn corrected [0x80#8, 0x02#8, 0x02#8]).setReg 0 0x44#8).setReg 2 0x20#8).setFlags 0x60#8))
      (fun t => t.reg 0 == 0x00#8 && t.flags == 0xE0#8) = true := by decide
theorem test_shl_V65 : nextMeets (step (((place 0x00 [0x90#8, 0x01#8]).setReg 1 0x80#8).setFlags 0x40#8))
    (fun t => t.reg 1 == 0x00#8 && t.flags == 0xC0#8 && t.pc == 0x02#8) = true := by decide
theorem test_shl_V66 : nextMeets (step ((place 0x00 [0x90#8, 0x01#8]).setReg 1 0x41#8))
    (fun t => t.reg 1 == 0x82#8 && t.flags == 0x10#8) = true := by decide
theorem test_shr_V70 : nextMeets (step (((place 0x00 [0xA0#8, 0x01#8]).setReg 1 0x80#8).setFlags 0x10#8))
    (fun t => t.reg 1 == 0x40#8 && t.flags == 0x00#8) = true := by decide
theorem test_shr_faults_V72 : nextMeets (step (place 0x00 [0xA0#8, 0x0A#8]))
    (fun t => t.status == .faulted && t.pc == 0x02#8) = true := by decide
theorem test_push_wraps_V74 :
    nextMeets (step ((((place 0x00 [0xB0#8, 0x00#8]).setReg 0 0x99#8).setSp 0x00#8).setFlags 0x80#8))
      (fun t => t.sp == 0xFF#8 && t.readMem 0xFF#8 == 0x99#8 && t.flags == 0x80#8) = true := by decide
theorem test_push_faults_V76 : nextMeets (step (place 0x00 [0xB0#8, 0x08#8]))
    (fun t => t.status == .faulted && t.sp == 0xF0#8 && t.pc == 0x02#8) = true := by decide
theorem test_pop_wraps_V78 :
    nextMeets (step (((place 0x00 [0xC0#8, 0x02#8]).writeMem 0xFF#8 0x80#8).setSp 0xFF#8))
      (fun t => t.reg 2 == 0x80#8 && t.flags == 0x10#8 && t.sp == 0x00#8) = true := by decide
theorem test_pop_reads_code_V80 : nextMeets (step (((place 0x00 [0xC0#8, 0x04#8]).setSp 0x01#8).setFlags 0x60#8))
    (fun t => t.reg 4 == 0x04#8 && t.flags == 0x60#8 && t.sp == 0x02#8) = true := by decide
theorem test_jmp_straddles_V83 : nextMeets (step (place 0xFF [0xD0#8, 0x20#8])) (fun t => t.pc == 0x20#8) = true := by
  decide
theorem test_jz_taken_V85 : nextMeets (step ((place 0x03 [0xE0#8, 0x30#8]).setFlags 0x80#8))
    (fun t => t.pc == 0x30#8) = true := by decide
theorem test_jz_not_taken_V86 : nextMeets (step ((place 0x03 [0xE0#8, 0x30#8]).setFlags 0x70#8))
    (fun t => t.pc == 0x05#8) = true := by decide
theorem test_jnz_taken_V90 : nextMeets (step ((place 0x0D [0xF0#8, 0x0D#8]).setFlags 0x70#8))
    (fun t => t.pc == 0x0D#8) = true := by decide
theorem test_jnz_not_taken_V89 : nextMeets (step ((place 0x0D [0xF0#8, 0x06#8]).setFlags 0x80#8))
    (fun t => t.pc == 0x0F#8) = true := by decide

/-! ### Witnesses: the hypotheses of each statement are met by something -/

theorem witness_BootLoadsTheImage :
    (List.replicate 256 0x10#8).length ≤ 256 ∧ 255 < (List.replicate 256 0x10#8).length ∧
      ([0x10#8] : List Byte).length ≤ (0xFF#8).toNat ∧ 256 < (List.replicate 257 0x10#8).length := by
  simp only [List.length_replicate]; decide

theorem witness_ObservationShowsTheState :
    State.reset.status = .running ∧ (State.reset.stop .haltOpcode).status ≠ .running := by decide

theorem witness_CausePcWhileRunningIsNeverSeen :
    ((place 0x00 [0x10#8]).status = .running ∧
      nextMeets (step (place 0x00 [0x10#8])) (fun t => t.status != .running) = true) ∧
    State.reset.status = .running ∧ nextMeets (step State.reset) (fun t => t.status == .running) = true := by decide

theorem witness_RunEndsOnlyWhenStopped : (runFor 1 (place 0x00 [0x10#8])).isSome = true := by decide

theorem witness_DecodeAndEncodeAgree : decode [0xB0#8, 0xFF#8, 0x00#8] = .instr (.push 0xFF) := by decide

theorem witness_OpcodeMapIsExact : 0x01#8 ∉ assignedOpcodes ∧ 0xFF#8 ∉ assignedOpcodes := by decide

theorem witness_LengthIsDecidedByTheOpcode :
    (encode .nop).head? = some 0x00#8 ∧ (encode (.jnz 0)).head? = some 0xF0#8 ∧
      (encode (.xor 0 0)).head? = some 0x80#8 := by decide

theorem witness_StepRunsTheDecodedInstruction :
    let s := place 0xFE [0x14#8, 0x01#8, 0x7F#8]
    s.status = .running ∧ decode [s.readMem s.pc, s.readMem (s.pc + 1), s.readMem (s.pc + 2)] = .instr (.ldi 1 0x7F) := by
  decide

theorem witness_StepRunsTheEncodedBytes :
    (place 0xFE [0x14#8, 0x01#8, 0x7F#8]).status = .running ∧
      BytesAt (place 0xFE [0x14#8, 0x01#8, 0x7F#8]) 0xFE (encode (.ldi 1 0x7F)) := by
  unfold BytesAt; decide

theorem witness_FetchReadsTheInstruction : BytesAt (place 0xFF [0xD0#8, 0x20#8]) 0xFF (encode (.jmp 0x20)) := by
  unfold BytesAt; decide

theorem witness_PlacedWordIsTheNextInstruction :
    State.reset.mem.wf = true ∧ decodeTableWord 24 0xFF0714 = some (.ldi 7 0xFF) := by decide

theorem witness_UnrecognizedOpcodeStopsTheCore :
    (place 0x00 [0xFF#8]).status = .running ∧ (place 0x00 [0xFF#8]).readMem 0x00 ∉ assignedOpcodes := by decide

theorem witness_StoppedCoreHasNoStep :
    (State.reset.stop .haltOpcode).status = .halted ∧ (State.reset.raiseInvalidRegisterIndex 3).status = .faulted := by
  decide

theorem witness_RunningCoreAlwaysSteps : State.reset.status = .running := by decide

theorem witness_LdiMeetsItsRule : (7#8).toNat < 8 ∧ 8 ≤ (8#8).toNat := by decide

theorem witness_MvMeetsItsRule :
    ((7#8).toNat < 8 ∧ (0#8).toNat < 8 ∧ State.reset.params.flagMode = .reference ∧
      (State.resetWith corrected).params.flagMode = .corrected) ∧ (8 ≤ (0#8).toNat ∨ 8 ≤ (8#8).toNat) := by decide

theorem witness_AddMeetsItsRule : ((7#8).toNat < 8 ∧ (7#8).toNat < 8) ∧ (8 ≤ (7#8).toNat ∨ 8 ≤ (8#8).toNat) := by decide

theorem witness_SubMeetsItsRule : ((0#8).toNat < 8 ∧ (7#8).toNat < 8) ∧ (8 ≤ (8#8).toNat ∨ 8 ≤ (7#8).toNat) := by decide

/-- Each of the four cases of the flag source, with operands in range, and the raising case. The hypotheses of
LogicInstructionsMeetTheirRules are the same. -/
theorem witness_MulMeetsItsRule :
    ((0#8).toNat < 8 ∧ (7#8).toNat < 8) ∧ (State.resetWith corrected).params.flagMode = .corrected ∧
      ((State.resetWith afterWrite).params.flagMode = .reference ∧ (0#8).toNat = 0 ∧
        (State.resetWith afterWrite).params.ra0Read = .afterWrite) ∧
      (State.reset.params.flagMode = .reference ∧ State.reset.params.ra0Read = .beforeWrite) ∧ (7#8).toNat ≠ 0 ∧
      (8 ≤ (8#8).toNat ∨ 8 ≤ (0#8).toNat) := by decide

theorem witness_LogicInstructionsMeetTheirRules :
    ((7#8).toNat < 8 ∧ (0#8).toNat < 8) ∧ (State.resetWith corrected).params.flagMode = .corrected ∧
      State.reset.params.flagMode = .reference ∧ (7#8).toNat ≠ 0 ∧ (8 ≤ (0#8).toNat ∨ 8 ≤ (255#8).toNat) := by decide

theorem witness_DivMeetsItsRule :
    (State.reset.setReg 7 0xFF#8).reg 7 ≠ 0 ∧ (7#8).toNat < 8 ∧ (8 ≤ (8#8).toNat ∨ 8 ≤ (0#8).toNat) := by decide

theorem witness_DivisionByZeroIsRecovered : (0#8).toNat < 8 ∧ (7#8).toNat < 8 ∧ State.reset.reg 7 = 0 := by decide

theorem witness_ShiftsMeetTheirRules :
    (7#8).toNat < 8 ∧ 8 ≤ (8#8).toNat ∧ nextMeets (exec (.shr 7) (State.reset.setReg 7 0xFF#8)) (fun _ => true) = true := by
  decide

theorem witness_PushMeetsItsRule : (7#8).toNat < 8 ∧ State.reset.mem.wf = true ∧ 8 ≤ (8#8).toNat := by decide

theorem witness_PopMeetsItsRule : (7#8).toNat < 8 ∧ (0#8).toNat < 8 ∧ State.reset.mem.wf = true ∧ 8 ≤ (8#8).toNat := by
  decide

theorem witness_PushThenPopMovesTheRegister :
    let s := place 0x00 [0xB0#8, 0x03#8, 0xC0#8, 0x07#8]
    (3#8).toNat < 8 ∧ (7#8).toNat < 8 ∧ s.status = .running ∧ s.mem.wf = true ∧
      BytesAt s s.pc [0xB0#8, 0x03#8, 0xC0#8, 0x07#8] ∧ s.sp - 1 ≠ s.pc + 2 ∧ s.sp - 1 ≠ s.pc + 3 := by
  unfold BytesAt; decide

theorem witness_PushedOpcodeIsFetchedNext :
    let s := ((place 0x10 [0xB0#8, 0x01#8]).setReg 1 0x10#8).setSp 0x13#8
    (1#8).toNat < 8 ∧ s.status = .running ∧ s.mem.wf = true ∧ BytesAt s s.pc [0xB0#8, 0x01#8] ∧
      s.sp - 1 = s.pc + 2 ∧ s.reg 1 = 0x10#8 := by
  unfold BytesAt; decide

theorem witness_PcPassesTheInstruction :
    BytesAt (place 0xFF [0xD0#8, 0x20#8]) 0xFF (encode (.jmp 0x20)) ∧
      nextMeets (step (place 0xFF [0xD0#8, 0x20#8])) (fun _ => true) = true := by
  unfold BytesAt; decide

theorem witness_ZeroBytesRunAsNops :
    State.reset.status = .running ∧ ∀ k, k < 256 → State.reset.readMem (State.reset.pc + BitVec.ofNat 8 k) = 0x00#8 :=
  ⟨by decide, fun _ _ => rfl⟩

theorem witness_InvalidRegisterIndexIsRaisedExactly :
    (∃ b ∈ (Instr.div 9 1).regOperands, 8 ≤ b.toNat) ∧ (∀ b ∈ (Instr.div 7 0).regOperands, b.toNat < 8) ∧
      State.reset.status = .running := by decide

theorem witness_StopRecordTellsTheTruth :
    nextMeets (step (place 0x12 [0x10#8])) (fun t => t.status != .running) = true ∧
      nextMeets (step (place 0xFF [0x02#8])) (fun t => t.status != .running) = true ∧
      nextMeets (step (place 0x00 [0x50#8, 0x09#8, 0x01#8])) (fun t => t.status != .running) = true := by decide

theorem witness_StepKeepsTheInvariant :
    MachineInv State.reset ∧ nextMeets (step State.reset) (fun _ => true) = true := by
  unfold MachineInv; decide

theorem witness_RunsKeepTheInvariant : MachineInv State.reset ∧ Reaches State.reset State.reset :=
  ⟨⟨by decide, by decide, by decide⟩, 0, rfl⟩

/-- `JMP 0x00` at 0x00 reaches itself alone, and the instruction there is well-formed. -/
theorem witness_RunsOfWellFormedInstructionsNeverFault :
    (place 0x00 [0xD0#8, 0x00#8]).status ≠ .faulted ∧
      ∀ (u : State) (i : Instr), Reaches (place 0x00 [0xD0#8, 0x00#8]) u → u.status = .running →
        BytesAt u u.pc (encode i) → i.wellFormed = true := by
  refine ⟨by decide, fun u i ⟨n, hn⟩ _ hb => ?_⟩
  have hstep : step (place 0x00 [0xD0#8, 0x00#8]) = .next (place 0x00 [0xD0#8, 0x00#8]) := rfl
  have hrun : ∀ n, Sys2Proof.core.run n (place 0x00 [0xD0#8, 0x00#8]) = .next (place 0x00 [0xD0#8, 0x00#8]) := by
    intro n
    induction n with
    | zero => rfl
    | succ n ih => simp only [Host.Core.run, Sys2Proof.core, hstep]; exact ih
  rw [hrun] at hn
  cases hn
  have h : Decoded.instr i = .instr (.jmp 0) := (decode_of_bytesAt hb).symm.trans (by decide)
  cases h
  rfl

theorem witness_StepKeepsTheParameters : nextMeets (step State.reset) (fun _ => true) = true := by decide

theorem witness_OnlyAddAndSubChangeCarry :
    let s := ((place 0x00 [0x20#8, 0x01#8, 0x02#8]).setReg 1 0xFF#8).setReg 2 0x01#8
    nextMeets (step s) (fun t => flagBit .carry t.flags != flagBit .carry s.flags) = true := by decide

theorem witness_OverflowIsStickyUntilMul :
    (flagBit .overflow (place 0x00 [0x50#8, 0x01#8, 0x02#8]).flags = false ∧
      nextMeets (step (place 0x00 [0x50#8, 0x01#8, 0x02#8])) (fun t => flagBit .overflow t.flags) = true) ∧
    (flagBit .overflow ((place 0x00 [0x40#8, 0x01#8, 0x02#8]).setFlags 0x20#8).flags = true ∧
      nextMeets (step ((place 0x00 [0x40#8, 0x01#8, 0x02#8]).setFlags 0x20#8))
        (fun t => !flagBit .overflow t.flags) = true) := by decide

theorem witness_OnlySetZnCallersChangeZeroAndNegative :
    nextMeets (step (place 0x00 [0x14#8, 0x00#8, 0x00#8])) (fun t => flagBit .zero t.flags) = true ∧
      nextMeets (step (place 0x00 [0x14#8, 0x00#8, 0x80#8])) (fun t => flagBit .negative t.flags) = true := by decide

theorem witness_OnlyPushAndPopMoveSp :
    nextMeets (step (place 0x00 [0xB0#8, 0x00#8])) (fun t => t.sp == 0xEF#8) = true ∧
      nextMeets (step (place 0x00 [0xC0#8, 0x00#8])) (fun t => t.sp == 0xF1#8) = true := by decide

theorem witness_OnlyPushChangesMemory :
    let s := (place 0x00 [0xB0#8, 0x00#8]).setReg 0 0x99#8
    nextMeets (step s) (fun t => t.readMem 0xEF#8 != s.readMem 0xEF#8) = true := by decide

theorem witness_OnlyTheDestinationRegisterChanges :
    nextMeets (exec (.ldi 7 0xFF) State.reset) (fun t => t.reg 7 != State.reset.reg 7) = true := by decide

theorem witness_OnlyZeroIsRead : flagBit .zero 0x70#8 = flagBit .zero State.reset.flags := by decide

theorem witness_ParametersDecideOnlyQuirkFlags :
    nextMeets (exec (.mv 1 0) (State.reset.setReg 0 0x80#8)) (fun t =>
      nextMeets (exec (.mv 1 0) { State.reset.setReg 0 0x80#8 with params := corrected })
        (fun u => u.flags != t.flags)) = true := by decide

theorem witness_StoreThenReadGivesTheByte : State.reset.mem.wf = true ∧ (0xFF#8 : Byte) ≠ 0x00#8 := by decide

theorem witness_EqualReadsMeanEqualMemory :
    ((State.reset.writeMem 0xFF 1).writeMem 0x00 2).mem.wf = true ∧
      ((State.reset.writeMem 0x00 2).writeMem 0xFF 1).mem.wf = true ∧
      ∀ a : Byte, ((State.reset.writeMem 0xFF 1).writeMem 0x00 2).readMem a =
        ((State.reset.writeMem 0x00 2).writeMem 0xFF 1).readMem a := by decide

end Sys2Proof.Machine.Tests
end

/-! The opcode map (spec/30_encoding.md R46, R47, R54): the decoder undoes the encoder, and rejects every other byte. -/

namespace Sys2Proof

/-- Decoding an encoding gives the instruction back, whatever bytes follow it (R46, R47). -/
theorem decode_encode_append (i : Instr) (rest : List Byte) : decode (encode i ++ rest) = .instr i := by
  cases i <;> rfl

/-- Settles O8: each row of R47's table is the round trip of its instruction, where the bytes that the instruction does
not take belong to the bytes after it; every other byte is outside `assignedOpcodes`. -/
theorem opcodeMapIsExact : Obligations.OpcodeMapIsExact := by
  intro b c rest
  exact ⟨
    decode_encode_append .nop (b :: c :: rest),
    decode_encode_append .halt (b :: c :: rest),
    decode_encode_append (.ldi b c) rest,
    decode_encode_append (.mv b c) rest,
    decode_encode_append (.add b c) rest,
    decode_encode_append (.sub b c) rest,
    decode_encode_append (.mul b c) rest,
    decode_encode_append (.div b c) rest,
    decode_encode_append (.and b c) rest,
    decode_encode_append (.or b c) rest,
    decode_encode_append (.xor b c) rest,
    decode_encode_append (.shl b) (c :: rest),
    decode_encode_append (.shr b) (c :: rest),
    decode_encode_append (.push b) (c :: rest),
    decode_encode_append (.pop b) (c :: rest),
    decode_encode_append (.jmp b) (c :: rest),
    decode_encode_append (.jz b) (c :: rest),
    decode_encode_append (.jnz b) (c :: rest),
    fun _ unassigned => decode_unassigned unassigned rest⟩

end Sys2Proof

/-! Engine control (spec/40_engine.md R61): passing over an instruction moves `pc` alone, and NOP does no more. -/

namespace Sys2Proof.Machine

/-- Moving `pc` writes no register. -/
theorem advance_keepsRegs (s : State) (len : Nat) : KeepsRegsBut [] s (s.advance len) :=
  fun r _ => State.advance_reg s len r

/-- Moving `pc` keeps `sp`, every byte of memory, the status record and the parameters. -/
theorem advance_keepsRest (s : State) (len : Nat) : KeepsRest s (s.advance len) := by
  have mem : KeepsMem s (s.advance len) := fun a => State.advance_readMem s len a
  have record : KeepsRecord s (s.advance len) :=
    ⟨State.advance_status s len, State.advance_cause s len, State.advance_causePc s len⟩
  exact ⟨State.advance_sp s len, mem, record, State.advance_params s len⟩

/-- NOP passes over its one byte (R61). -/
theorem exec_nop (s : State) : exec .nop s = .next (s.advance 1) := rfl

/-- Settles O15: the next state of NOP is `s.advance 1`, and moving `pc` keeps all the rest. -/
theorem nopAdvancesPcAlone : Obligations.NopAdvancesPcAlone := by
  intro s
  have opcode : encode .nop = [0x00#8] := rfl
  exact ⟨opcode, s.advance 1, exec_nop s, State.advance_pc s 1, advance_keepsRegs s 1, State.advance_flags s 1,
    advance_keepsRest s 1⟩

end Sys2Proof.Machine

/-! Control transfers (spec/45_control.md R79 to R81): a jump, taken or not, is a write of `pc`, and that write keeps all
the rest. -/

namespace Sys2Proof.Machine

/-- Writing `pc` writes no register. -/
theorem setPc_keepsRegs (s : State) (a : Byte) : KeepsRegsBut [] s (s.setPc a) :=
  fun r _ => State.setPc_reg s a r

/-- Writing `pc` keeps `sp`, every byte of memory, the status record and the parameters. -/
theorem setPc_keepsRest (s : State) (a : Byte) : KeepsRest s (s.setPc a) := by
  have mem : KeepsMem s (s.setPc a) := fun b => State.setPc_readMem s a b
  have record : KeepsRecord s (s.setPc a) :=
    ⟨State.setPc_status s a, State.setPc_cause s a, State.setPc_causePc s a⟩
  exact ⟨State.setPc_sp s a, mem, record, State.setPc_params s a⟩

/-- Writing `pc` changes `pc` alone: the frame that the three jumps share. -/
theorem setPc_changesPcAlone (s : State) (a : Byte) :
    (s.setPc a).pc = a ∧ KeepsRegsBut [] s (s.setPc a) ∧ (s.setPc a).flags = s.flags ∧ KeepsRest s (s.setPc a) :=
  ⟨State.setPc_pc s a, setPc_keepsRegs s a, State.setPc_flags s a, setPc_keepsRest s a⟩

/-- A jump writes its target to `pc` when it is taken, else the address past its operand. -/
theorem jumpIf_eq_setPc (taken : Bool) (addr : Byte) (s : State) :
    s.jumpIf taken addr = s.setPc (if taken = true then addr else s.pc + 2) := by
  cases taken with
  | true => rfl
  | false => rfl

/-- JMP is always taken (R79). -/
theorem exec_jmp (addr : Byte) (s : State) : exec (.jmp addr) s = .next (s.setPc addr) := rfl

/-- JZ is taken when ZERO is 1 (R80). -/
theorem exec_jz (addr : Byte) (s : State) :
    exec (.jz addr) s = .next (s.setPc (if flagBit .zero s.flags = true then addr else s.pc + 2)) :=
  congrArg Host.Outcome.next (jumpIf_eq_setPc (flagBit .zero s.flags) addr s)

/-- JNZ is taken when ZERO is 0 (R81). -/
theorem exec_jnz (addr : Byte) (s : State) :
    exec (.jnz addr) s = .next (s.setPc (if flagBit .zero s.flags = true then s.pc + 2 else addr)) := by
  have meaning : exec (.jnz addr) s = .next (s.jumpIf (!flagBit .zero s.flags) addr) := rfl
  rw [meaning, jumpIf_eq_setPc]
  cases flagBit .zero s.flags with
  | true => rfl
  | false => rfl

/-- Settles O33: the next state of each jump is `s.setPc` of its target or of the address past its operand, and writing
`pc` changes `pc` alone. -/
theorem jumpsMeetTheirRules : Obligations.JumpsMeetTheirRules := by
  intro addr s
  have jmpOpcode : encode (.jmp addr) = [0xD0#8, addr] := rfl
  have jzOpcode : encode (.jz addr) = [0xE0#8, addr] := rfl
  have jnzOpcode : encode (.jnz addr) = [0xF0#8, addr] := rfl
  exact ⟨jmpOpcode, jzOpcode, jnzOpcode,
    ⟨_, exec_jmp addr s, setPc_changesPcAlone s _⟩,
    ⟨_, exec_jz addr s, setPc_changesPcAlone s _⟩,
    ⟨_, exec_jnz addr s, setPc_changesPcAlone s _⟩⟩

end Sys2Proof.Machine

/-! Exceptions (spec/60_exceptions.md R86): a DIV by zero is a write of the flags byte and a move of `pc`; each keeps all the
rest, and so do the two one after the other. -/

namespace Sys2Proof.Machine

/-- Registers kept by each of two changes are kept by both. -/
theorem KeepsRegsBut.trans {written : List RegIdx} {s t u : State} (hst : KeepsRegsBut written s t)
    (htu : KeepsRegsBut written t u) : KeepsRegsBut written s u :=
  fun r kept => (htu r kept).trans (hst r kept)

/-- What is kept by each of two changes is kept by both. -/
theorem KeepsRest.trans {s t u : State} (hst : KeepsRest s t) (htu : KeepsRest t u) : KeepsRest s u := by
  obtain ⟨sp, mem, ⟨status, cause, causePc⟩, params⟩ := hst
  obtain ⟨sp', mem', ⟨status', cause', causePc'⟩, params'⟩ := htu
  have memory : KeepsMem s u := fun a => (mem' a).trans (mem a)
  have record : KeepsRecord s u := ⟨status'.trans status, cause'.trans cause, causePc'.trans causePc⟩
  exact ⟨sp'.trans sp, memory, record, params'.trans params⟩

/-- Writing the flags byte writes no register. -/
theorem setFlags_keepsRegs (s : State) (f : Byte) : KeepsRegsBut [] s (s.setFlags f) :=
  fun r _ => State.setFlags_reg s f r

/-- Writing the flags byte keeps `sp`, every byte of memory, the status record and the parameters. -/
theorem setFlags_keepsRest (s : State) (f : Byte) : KeepsRest s (s.setFlags f) := by
  have mem : KeepsMem s (s.setFlags f) := fun a => State.setFlags_readMem s f a
  have record : KeepsRecord s (s.setFlags f) :=
    ⟨State.setFlags_status s f, State.setFlags_cause s f, State.setFlags_causePc s f⟩
  exact ⟨State.setFlags_sp s f, mem, record, State.setFlags_params s f⟩

/-- A state whose flags byte is that of `s` with one flag written keeps the other flags and bits 3:0 (R20). -/
theorem keepsFlagsBut_of_writeFlag {s t : State} {x : Flag} {b : Bool} (h : t.flags = writeFlag x b s.flags) :
    KeepsFlagsBut [x] s t := by
  unfold KeepsFlagsBut
  rw [h]
  exact ⟨fun y other => flagBit_writeFlag_ne (List.ne_of_not_mem_cons other) b s.flags, writeFlag_low x b s.flags⟩

/-- DIV with valid operands and a divisor of 0 sets OVERFLOW and passes over its three bytes (R70, R86). -/
theorem exec_div_of_divisor_zero {ra rb : Byte} {s : State} (ha : ra.toNat < 8) (hb : rb.toNat < 8)
    (divisorZero : s.reg ⟨rb.toNat, hb⟩ = 0) :
    exec (.div ra rb) s = .next ((s.setFlags (writeFlag .overflow true s.flags)).advance 3) :=
  calc exec (.div ra rb) s
      = execDiv ra rb s := rfl
    _ = .next ((s.setFlags (writeFlag .overflow true s.flags)).advance 3) := by
        rw [execDiv, withRegs_of_lt ha hb, if_pos divisorZero]

/-- Settles O26: the recovery writes OVERFLOW, then moves `pc`; neither changes anything else. -/
theorem divisionByZeroIsRecovered : Obligations.DivisionByZeroIsRecovered := by
  intro ra rb s ha hb divisorZero
  exact ⟨_, exec_div_of_divisor_zero ha hb divisorZero,
    flagBit_writeFlag_self .overflow true s.flags,
    keepsFlagsBut_of_writeFlag (b := true) rfl,
    (setFlags_keepsRegs s _).trans (advance_keepsRegs _ 3),
    State.advance_pc _ 3,
    (setFlags_keepsRest s _).trans (advance_keepsRest _ 3)⟩

end Sys2Proof.Machine

/-! Reset (spec/70_reset_and_hazards.md R99): power-on and the host's reset are both `State.resetWith`, with the spec's
parameters and with those of the machine. -/

namespace Sys2Proof.Machine

/-- A reset machine has the reset values whatever its parameters (R99). -/
theorem resetWith_hasResetValues (p : Params) : HasResetValues (State.resetWith p) := by
  have causeCode : (State.resetWith p).cause.code = 0 := congrArg Cause.code (State.resetWith_cause p)
  exact ⟨State.resetWith_reg p, State.resetWith_pc p, State.resetWith_sp p, State.resetWith_flags p,
    State.resetWith_readMem p, State.resetWith_status p, causeCode⟩

/-- Settles O1: power-on resets with the spec's parameters, the host's reset with those of the machine it resets. -/
theorem resetLeavesTheResetValues : Obligations.ResetLeavesTheResetValues :=
  ⟨resetWith_hasResetValues Params.spec, fun s => resetWith_hasResetValues s.params⟩

end Sys2Proof.Machine

/-! Decode and encode agree (spec/30_encoding.md R45 to R49): what decodes to an instruction begins with its encoding. -/

namespace Sys2Proof

/-- A one-operand row answers an instruction only from its opcode and operand byte (R46). -/
theorem begins_with_encode_of_takeOne {op : Byte} {make : Byte → Instr} (row : ∀ b, encode (make b) = [op, b])
    {bytes : List Byte} {i : Instr} (h : takeOne op make bytes = .instr i) : ∃ rest, op :: bytes = encode i ++ rest := by
  rcases takeOne_cases op make bytes with ⟨b, rest, rfl, answer⟩ | ⟨-, answer⟩
  · cases answer.symm.trans h
    exact ⟨rest, by rw [row]; rfl⟩
  · cases answer.symm.trans h

/-- A two-operand row answers an instruction only from its opcode and operand bytes (R46, R49). -/
theorem begins_with_encode_of_takeTwo {op : Byte} {make : Byte → Byte → Instr} (row : ∀ b c, encode (make b c) = [op, b, c])
    {bytes : List Byte} {i : Instr} (h : takeTwo op make bytes = .instr i) : ∃ rest, op :: bytes = encode i ++ rest := by
  rcases takeTwo_cases op make bytes with ⟨b, c, rest, rfl, answer⟩ | ⟨-, answer⟩
  · cases answer.symm.trans h
    exact ⟨rest, by rw [row]; rfl⟩
  · cases answer.symm.trans h

/-- Bytes that decode to an instruction begin with its encoding: one case for each row of R47, and no answer from the
other bytes. -/
theorem begins_with_encode_of_decode {bytes : List Byte} {i : Instr} (h : decode bytes = .instr i) :
    ∃ rest, bytes = encode i ++ rest := by
  cases bytes with
  | nil => cases h
  | cons op rest =>
    simp only [decode] at h
    split at h
    case h_1 | h_2 => cases h; exact ⟨rest, rfl⟩
    case h_3 | h_4 | h_5 | h_6 | h_7 | h_8 | h_9 | h_10 | h_11 => exact begins_with_encode_of_takeTwo (fun _ _ => rfl) h
    case h_12 | h_13 | h_14 | h_15 | h_16 | h_17 | h_18 => exact begins_with_encode_of_takeOne (fun _ => rfl) h
    case h_19 => cases h

/-- Settles O7: an encoding decodes to its instruction, and what decodes to an instruction begins with its encoding. -/
theorem decodeAndEncodeAgree : Obligations.DecodeAndEncodeAgree :=
  ⟨decode_encode_append, fun _ _ => begins_with_encode_of_decode⟩

/-- Settles O9: the instructions by their length, which is that of the one list of R45 with their opcode. -/
theorem lengthIsDecidedByTheOpcode : Obligations.LengthIsDecidedByTheOpcode := by
  intro i
  cases i with
  | nop | halt => exact ⟨_, _, rfl, rfl, fun _ => rfl, by simp, by simp⟩
  | shl | shr | push | pop | jmp | jz | jnz => exact ⟨_, _, rfl, rfl, by simp, fun _ => rfl, by simp⟩
  | ldi | mv | add | sub | mul | div | and | or | xor => exact ⟨_, _, rfl, rfl, by simp, by simp, fun _ => rfl⟩

/-- Settles O10: each of the eight is the round trip of its instruction with no bytes after it. -/
theorem scenarioBytesDecode : Obligations.ScenarioBytesDecode :=
  ⟨decode_encode_append (.ldi 1 5) [], decode_encode_append (.mv 4 0) [], decode_encode_append (.add 1 2) [],
    decode_encode_append (.mul 3 4) [], decode_encode_append (.shl 1) [], decode_encode_append (.push 5) [],
    decode_encode_append (.jz 6) [], decode_encode_append .halt []⟩

end Sys2Proof

/-! The step runs what stands at `pc` (spec/40_engine.md R59, spec/30_encoding.md R46): decoded from the three bytes there,
placed there by the host, or read by as many fetches as the instruction is long. -/

namespace Sys2Proof.Machine

/-- Settles O11: the bytes the decoder is offered are those at `pc`, `pc + 1` and `pc + 2`. -/
theorem stepRunsTheDecodedInstruction : Obligations.StepRunsTheDecodedInstruction := by
  intro s i running decoded
  rw [step_running running, instrBytes_eq, decoded]

/-- A step of a running core runs the instruction whose encoding stands at `pc`. -/
theorem step_of_bytesAt {s : State} {i : Instr} (running : s.status = .running) (bytes : BytesAt s s.pc (encode i)) :
    step s = exec i s :=
  stepRunsTheDecodedInstruction s i running (decode_of_bytesAt bytes)

/-- Settles O12: the decoder reads the instruction whose encoding stands at `pc`. -/
theorem stepRunsTheEncodedBytes : Obligations.StepRunsTheEncodedBytes :=
  fun _ _ running bytes => step_of_bytesAt running bytes

/-- The address `k` past the next is the address `k + 1` on. -/
theorem add_one_add_ofNat (a : Byte) (k : Nat) : a + 1#8 + BitVec.ofNat 8 k = a + BitVec.ofNat 8 (k + 1) := by
  rw [BitVec.add_assoc, ← BitVec.ofNat_add, Nat.add_comm 1 k]

/-- Fetching reads the bytes from `pc` on, one after another (R49). -/
theorem fetchMany_fst (n : Nat) (s : State) :
    (s.fetchMany n).1 = (List.range n).map fun k => s.readMem (s.pc + BitVec.ofNat 8 k) := by
  induction n generalizing s with
  | zero => rfl
  | succ n ih => simp [State.fetchMany, State.fetch, ih, List.range_succ_eq_map, Function.comp_def, add_one_add_ofNat]

/-- Settles O13: the fetched bytes are those of the encoding, position by position, and `n` fetches move `pc` by `n`. -/
theorem fetchReadsTheInstruction : Obligations.FetchReadsTheInstruction := by
  intro s i bytes
  refine ⟨?_, fetchMany_snd i.length s⟩
  rw [fetchMany_fst]
  refine List.ext_getElem (by simp) fun k _ inside => ?_
  simpa using bytes k inside

/-- A word of the opcode table stands for the instruction its bytes decode to. -/
theorem decode_wordBytes {nbits w : Nat} {i : Instr} (h : decodeTableWord nbits w = some i) :
    decode (wordBytes nbits w) = .instr i := by
  unfold decodeTableWord at h
  split at h
  · next decoded => cases h; exact decoded
  · cases h

@[simp] theorem wordBytes_length (nbits w : Nat) : (wordBytes nbits w).length = 3 := by simp [wordBytes]

@[simp] theorem withFetchWord_pc (s : State) (nbits w : Nat) : (s.withFetchWord nbits w).pc = s.pc :=
  State.writeBytes_pc _ _ _

@[simp] theorem withFetchWord_status (s : State) (nbits w : Nat) : (s.withFetchWord nbits w).status = .running :=
  State.writeBytes_status _ _ _

/-- A placed word reads back byte by byte from `pc` on. -/
theorem readMem_withFetchWord {s : State} (wf : s.mem.wf = true) (nbits w : Nat) {k : Nat} (hk : k < 3) :
    (s.withFetchWord nbits w).readMem (s.pc + BitVec.ofNat 8 k) = (wordBytes nbits w)[k]'(by simpa using hk) := by
  have fits : (wordBytes nbits w).length ≤ Config.memSize := by rw [wordBytes_length]; decide
  have offset : k % 256 = k := Nat.mod_eq_of_lt (by omega)
  calc (s.withFetchWord nbits w).readMem (s.pc + BitVec.ofNat 8 k)
      = _ := State.readMem_writeBytes _ s.pc { s with status := .running, cause := .none } wf fits _
    _ = _ := by simp [offset, hk]

/-- The decoder is offered the placed word. -/
theorem instrBytes_withFetchWord {s : State} (wf : s.mem.wf = true) (nbits w : Nat) :
    (s.withFetchWord nbits w).instrBytes = wordBytes nbits w := by
  unfold State.instrBytes
  rw [fetchMany_fst]
  refine List.ext_getElem (by simp) fun k inside _ => ?_
  have hk : k < 3 := by simpa using inside
  simpa using readMem_withFetchWord wf nbits w hk

/-- Settles O14: the placed word is what the decoder is offered, on a core that `withFetchWord` makes RUNNING. -/
theorem placedWordIsTheNextInstruction : Obligations.PlacedWordIsTheNextInstruction := by
  intro s nbits w i wf word
  rw [step_running (withFetchWord_status s nbits w), instrBytes_withFetchWord wf, decode_wordBytes word]

end Sys2Proof.Machine

/-! What a step can be (spec/40_engine.md R59, R63, R88): the effect of a well-formed instruction that stands at `pc`, the
fault of an ill-formed one, or the halt of an unrecognized opcode. -/

namespace Sys2Proof.Machine

/-- The next states of a step. -/
inductive StepsTo (s : State) : State → Prop where
  /-- A well-formed instruction stands at `pc`. -/
  | ran {t : State} (i : Instr) (bytes : BytesAt s s.pc (encode i)) (wf : i.wellFormed = true) (effect : Effect i s t) :
      StepsTo s t
  /-- An instruction with a register operand byte of 8 or more stands at `pc`. -/
  | raised (i : Instr) (bytes : BytesAt s s.pc (encode i)) (ill : i.wellFormed = false) :
      StepsTo s (s.raiseInvalidRegisterIndex i.length)
  /-- No opcode stands at `pc`. -/
  | unrecognized (unassigned : s.readMem s.pc ∉ assignedOpcodes) : StepsTo s (s.stop .unrecognizedOpcode)

/-- A step that answers a next state was taken by a running core. -/
theorem running_of_step {s t : State} (h : step s = .next t) : s.status = .running := (step_cases h).1

/-- A step answers one of the next states of `StepsTo`. -/
theorem stepsTo_of_step {s t : State} (h : step s = .next t) : StepsTo s t := by
  rcases (step_cases h).2 with ⟨i, tail, offered, ran⟩ | ⟨unassigned, rfl⟩
  · have bytes := bytesAt_of_append offered
    rcases exec_next ran with ⟨ill, rfl⟩ | ⟨wf, effect⟩
    · exact .raised i bytes ill
    · exact .ran i bytes wf effect
  · exact .unrecognized unassigned

/-- What a step changes beside `pc` and the status record, a well-formed instruction changes: the end of a run keeps the
rest. -/
theorem effect_or_endRun_of_step {s t : State} (h : step s = .next t) :
    (∃ i, BytesAt s s.pc (encode i) ∧ i.wellFormed = true ∧ Effect i s t) ∨ ∃ st c len, t = s.endRun st c len := by
  cases stepsTo_of_step h with
  | ran i bytes wf effect => exact .inl ⟨i, bytes, wf, effect⟩
  | raised i => exact .inr ⟨_, _, _, s.raiseInvalidRegisterIndex_eq i.length⟩
  | unrecognized => exact .inr ⟨_, _, _, s.stop_eq _⟩

/-! ### Bytes in memory -/

theorem bytesAt_nil (s : State) (a : Byte) : BytesAt s a [] := fun _ inside => absurd inside (Nat.not_lt_zero _)

/-- Bytes stand at an address when the first stands there and the others from the next address on (R46). -/
theorem bytesAt_cons {s : State} {a b : Byte} {bs : List Byte} :
    BytesAt s a (b :: bs) ↔ s.readMem a = b ∧ BytesAt s (a + 1) bs := by
  have here : a + BitVec.ofNat 8 0 = a := BitVec.add_zero a
  constructor
  · intro bytes
    exact ⟨here ▸ bytes 0 (Nat.succ_pos _), fun k inside =>
      (add_one_add_ofNat a k).symm ▸ bytes (k + 1) (Nat.succ_lt_succ inside)⟩
  · rintro ⟨first, others⟩ k inside
    cases k with
    | zero => exact here.symm ▸ first
    | succ k => exact add_one_add_ofNat a k ▸ others k (Nat.lt_of_succ_lt_succ inside)

/-- The opcode of an instruction whose encoding stands at an address. -/
theorem readMem_of_bytesAt {s : State} {a op : Byte} {bs : List Byte} (bytes : BytesAt s a (op :: bs)) :
    s.readMem a = op := (bytesAt_cons.mp bytes).1

/-- The three bytes of a two-operand instruction. -/
theorem readMem_operands_of_bytesAt {s : State} {a op b c : Byte} (bytes : BytesAt s a [op, b, c]) :
    s.readMem a = op ∧ s.readMem (a + 1) = b ∧ s.readMem (a + 2) = c := by
  obtain ⟨first, others⟩ := bytesAt_cons.mp bytes
  obtain ⟨second, last⟩ := bytesAt_cons.mp others
  have sum : a + 1 + 1 = a + 2 := by rw [BitVec.add_assoc]; rfl
  exact ⟨first, second, sum ▸ readMem_of_bytesAt last⟩

end Sys2Proof.Machine

/-! Every step keeps the machine's invariant (spec/10_state.md R20, spec/60_exceptions.md R84), and with it every run. -/

namespace Sys2Proof.Machine

/-- A new status record that is a pair of R84's table keeps the invariant when nothing else but `pc` changes. -/
theorem endRun_keepsInv {s : State} (inv : MachineInv s) {st : Status} {c : Cause} (ok : statusRecordOk st c = true)
    (len : Nat) : MachineInv (s.endRun st c len) := by
  obtain ⟨mem, low, -⟩ := inv
  exact ⟨mem, low, ok⟩

/-- A completed instruction keeps the invariant: PUSH alone stores, flag writes keep bits 3:0, and HALT alone writes the
status record. -/
theorem Effect.keepsInv {i : Instr} {s t : State} (effect : Effect i s t) (inv : MachineInv s) : MachineInv t := by
  obtain ⟨mem, low, record⟩ := inv
  cases effect with
  | wrote r v f _ _ flags => exact ⟨mem, flags.low.trans low, record⟩
  | recovered => exact ⟨mem, (writeFlag_low .overflow true s.flags).trans low, record⟩
  | passed => exact ⟨mem, low, record⟩
  | jumped => exact ⟨mem, low, record⟩
  | pushed r => exact ⟨State.writeMem_wf mem (pushAddr s) (s.reg r), low, record⟩
  | popped => exact ⟨mem, (setZN_low _ s.flags).trans low, record⟩
  | stopped => exact endRun_keepsInv ⟨mem, low, record⟩ rfl 1

/-- Settles O38: an instruction that completes keeps the invariant, and each end of a run writes a pair of R84's table. -/
theorem stepKeepsTheInvariant : Obligations.StepKeepsTheInvariant := by
  intro s t inv h
  cases stepsTo_of_step h with
  | ran i bytes wf effect => exact effect.keepsInv inv
  | raised i => exact endRun_keepsInv inv rfl i.length
  | unrecognized => exact endRun_keepsInv inv rfl 1

end Sys2Proof.Machine

/-! The end of a run (spec/60_exceptions.md R84 to R92): what a halt and a fault leave, and that no step follows. -/

namespace Sys2Proof.Machine

/-- The halt of an opcode leaves what R85 says. -/
theorem stop_stoppedFrom (c : Cause) (s : State) : StoppedFrom c.code s (s.stop c) :=
  ⟨rfl, rfl, rfl, rfl, fun _ _ => rfl, rfl, rfl, fun _ => rfl, rfl⟩

/-- Raising InvalidRegisterIndex leaves what R90 and R91 say. -/
theorem raise_raisedFrom (len : Nat) (s : State) : RaisedFrom len s (s.raiseInvalidRegisterIndex len) :=
  ⟨rfl, rfl, rfl, rfl, fun _ _ => rfl, rfl, rfl, fun _ => rfl, rfl⟩

theorem RaisedFrom.raisedInvalidRegister {len : Nat} {s t : State} (h : RaisedFrom len s t) : RaisedInvalidRegister t := by
  obtain ⟨status, cause, -⟩ := h
  exact ⟨status, cause⟩

theorem step_halted {s : State} (h : s.status = .halted) : step s = .fault .haltedHasNoStep := by
  unfold step
  rw [h]

theorem step_faulted {s : State} (h : s.status = .faulted) : step s = .fault .faultedHasNoStep := by
  unfold step
  rw [h]

/-- Settles O16: HALT is `stop`, which leaves a halted core. -/
theorem haltStopsTheCore : Obligations.HaltStopsTheCore := by
  intro s
  have opcode : encode .halt = [0x10#8] := rfl
  have halts : exec .halt s = .next (s.stop .haltOpcode) := rfl
  exact ⟨opcode, _, halts, stop_stoppedFrom .haltOpcode s, step_halted rfl⟩

/-- A step at a byte that is no opcode is `stop` (R63). -/
theorem step_of_unassigned {s : State} (running : s.status = .running) (unassigned : s.readMem s.pc ∉ assignedOpcodes) :
    step s = .next (s.stop .unrecognizedOpcode) := by
  rw [step_running running, instrBytes_eq, decode_unassigned unassigned]
  rfl

/-- Settles O17: the step is `stop`, which leaves a halted core. -/
theorem unrecognizedOpcodeStopsTheCore : Obligations.UnrecognizedOpcodeStopsTheCore := by
  intro s running unassigned
  exact ⟨_, step_of_unassigned running unassigned, stop_stoppedFrom .unrecognizedOpcode s, step_halted rfl⟩

/-- Settles O19: the bytes at `pc` decode to an instruction, and each answers a next state, or the core halts. -/
theorem runningCoreAlwaysSteps : Obligations.RunningCoreAlwaysSteps := by
  intro s running
  by_cases assigned : s.readMem s.pc ∈ assignedOpcodes
  · obtain ⟨i, _, decoded, -⟩ := decode_assigned assigned (s.readMem (s.pc + 1)) (s.readMem (s.pc + 2)) []
    obtain ⟨t, ran, -⟩ := exec_cases i s
    exact ⟨t, (stepRunsTheDecodedInstruction s i running decoded).trans ran⟩
  · exact ⟨_, step_of_unassigned running assigned⟩

/-! ### InvalidRegisterIndex -/

/-- An instruction is ill-formed when some register operand byte is 8 or more (R88). -/
theorem wellFormed_eq_false_iff (i : Instr) : i.wellFormed = false ↔ ∃ b ∈ i.regOperands, 8 ≤ b.toNat := by
  simp [Instr.wellFormed, List.all_eq_false]

theorem wellFormed_iff (i : Instr) : i.wellFormed = true ↔ ∀ b ∈ i.regOperands, b.toNat < 8 := by
  simp [Instr.wellFormed, List.all_eq_true]

/-- An ill-formed instruction raises, whatever its other operands and the state hold (R87, R88). -/
theorem exec_of_invalid_operand {i : Instr} (invalid : ∃ b ∈ i.regOperands, 8 ≤ b.toNat) (s : State) :
    exec i s = .next (s.raiseInvalidRegisterIndex i.length) := by
  have ill := (wellFormed_eq_false_iff i).mpr invalid
  obtain ⟨t, ran, ⟨-, rfl⟩ | ⟨wf, -⟩⟩ := exec_cases i s
  · exact ran
  · exact absurd (wf.symm.trans ill) (by decide)

/-- A well-formed instruction has its effect. -/
theorem exec_of_wellFormed {i : Instr} (wf : i.wellFormed = true) (s : State) : ∃ t, exec i s = .next t ∧ Effect i s t := by
  obtain ⟨t, ran, ⟨ill, -⟩ | ⟨-, effect⟩⟩ := exec_cases i s
  · exact absurd (ill.symm.trans wf) (by decide)
  · exact ⟨t, ran, effect⟩

/-- A completed instruction writes the status record when it is HALT alone (R62). -/
theorem Effect.status_cases {i : Instr} {s t : State} (effect : Effect i s t) :
    t.status = s.status ∨ i = .halt ∧ t = s.stop .haltOpcode := by
  cases effect with
  | wrote | recovered | passed | jumped | pushed | popped => exact .inl rfl
  | stopped halt => exact .inr ⟨halt, rfl⟩

/-- No completed instruction of a core that is not FAULTED leaves it FAULTED. -/
theorem Effect.not_faulted {i : Instr} {s t : State} (effect : Effect i s t) (h : s.status ≠ .faulted) :
    t.status ≠ .faulted := by
  rcases effect.status_cases with kept | ⟨-, rfl⟩
  · rwa [kept]
  · exact Status.noConfusion

/-- Settles O36: an ill-formed instruction raises, a well-formed one has an effect, and no effect is a fault. -/
theorem invalidRegisterIndexIsRaisedExactly : Obligations.InvalidRegisterIndexIsRaisedExactly := by
  intro i s
  constructor
  · intro invalid
    exact ⟨_, exec_of_invalid_operand invalid s, raise_raisedFrom i.length s⟩
  · intro valid running
    obtain ⟨t, ran, effect⟩ := exec_of_wellFormed ((wellFormed_iff i).mpr valid) s
    exact ⟨t, ran, effect.not_faulted (by simp [running])⟩

/-- Settles O37: a step stops the core by HALT, by raising or at a byte that is no opcode; each writes the address of the
byte to `cause_pc` and keeps memory, so what stood at `pc` still stands there. -/
theorem stopRecordTellsTheTruth : Obligations.StopRecordTellsTheTruth := by
  intro s t h stopped
  cases stepsTo_of_step h with
  | ran i bytes wf effect =>
    rcases effect.status_cases with kept | ⟨rfl, rfl⟩
    · exact absurd (kept.trans (running_of_step h)) stopped
    · exact ⟨⟨rfl, bytes, rfl⟩, rfl, fun _ => rfl⟩
  | raised i bytes ill => exact ⟨⟨rfl, i, ill, bytes, rfl⟩, rfl, fun _ => rfl⟩
  | unrecognized unassigned => exact ⟨⟨rfl, unassigned, rfl⟩, rfl, fun _ => rfl⟩

end Sys2Proof.Machine

/-! Runs (spec/40_engine.md R59, R60): the steps of a run one by one, and the induction over the states it reaches. -/

namespace Sys2Proof.Machine

@[simp] theorem run_zero (s : State) : Sys2Proof.core.run 0 s = .next s := rfl

theorem run_succ_of_next {s t : State} (h : step s = .next t) (n : Nat) :
    Sys2Proof.core.run (n + 1) s = Sys2Proof.core.run n t := by
  simp only [Host.Core.run, Sys2Proof.core, h]

theorem run_succ_of_fault {s : State} {r : Fault} (h : step s = .fault r) (n : Nat) :
    Sys2Proof.core.run (n + 1) s = .fault r := by
  simp only [Host.Core.run, Sys2Proof.core, h]

/-- A step answers a next state or a fault and refuses nothing. -/
theorem step_next_or_fault (s : State) : (∃ t, step s = .next t) ∨ ∃ r, step s = .fault r := by
  cases status : s.status with
  | running => exact .inl (runningCoreAlwaysSteps s status)
  | halted => exact .inr ⟨_, step_halted status⟩
  | faulted => exact .inr ⟨_, step_faulted status⟩

/-- A run of one or more steps that answers a state takes its first step. -/
theorem step_of_run_succ {n : Nat} {s u : State} (h : Sys2Proof.core.run (n + 1) s = .next u) :
    ∃ t, step s = .next t ∧ Sys2Proof.core.run n t = .next u := by
  rcases step_next_or_fault s with ⟨t, next⟩ | ⟨r, fault⟩
  · exact ⟨t, next, (run_succ_of_next next n).symm.trans h⟩
  · exact nomatch (run_succ_of_fault fault n).symm.trans h

/-- What a step reaches further is reached. -/
theorem Reaches.head {s t u : State} (h : step s = .next t) (reached : Reaches t u) : Reaches s u := by
  obtain ⟨n, run⟩ := reached
  exact ⟨n + 1, (run_succ_of_next h n).trans run⟩

/-- What holds of the first state and is kept by every step holds of every state reached. -/
theorem Reaches.induction {P : State → Prop} (keeps : ∀ s t, P s → step s = .next t → P t) {s t : State} (start : P s)
    (reached : Reaches s t) : P t := by
  obtain ⟨n, run⟩ := reached
  induction n generalizing s with
  | zero => cases run; exact start
  | succ n ih =>
    obtain ⟨u, next, rest⟩ := step_of_run_succ run
    exact ih (keeps s u start next) rest

/-- Settles O18: `step` looks at the status first, and a run of one or more steps begins with one. -/
theorem stoppedCoreHasNoStep : Obligations.StoppedCoreHasNoStep := by
  intro s
  exact ⟨fun h => ⟨step_halted h, run_succ_of_fault (step_halted h)⟩,
    fun h => ⟨step_faulted h, run_succ_of_fault (step_faulted h)⟩, State.resetWith_status s.params⟩

/-- Settles O39: by induction over the run, each step keeping the invariant. -/
theorem runsKeepTheInvariant : Obligations.RunsKeepTheInvariant :=
  fun _ _ inv reached => reached.induction stepKeepsTheInvariant inv

/-- Every instruction reached from `s` names only R0 to R7. -/
def ReachesOnlyWellFormed (s : State) : Prop :=
  ∀ (u : State) (i : Instr), Reaches s u → u.status = .running → BytesAt u u.pc (encode i) → i.wellFormed = true

/-- A step from a state that reaches only well-formed instructions raises no fault and leads to such a state. -/
theorem not_faulted_of_step {s t : State} (h : ReachesOnlyWellFormed s ∧ s.status ≠ .faulted) (next : step s = .next t) :
    ReachesOnlyWellFormed t ∧ t.status ≠ .faulted := by
  obtain ⟨wellFormed, notFaulted⟩ := h
  refine ⟨fun u i reached => wellFormed u i (reached.head next), ?_⟩
  cases stepsTo_of_step next with
  | ran i bytes wf effect => exact effect.not_faulted notFaulted
  | raised i bytes ill =>
    have wf := wellFormed s i ⟨0, rfl⟩ (running_of_step next) bytes
    exact absurd (ill.symm.trans wf) (by decide)
  | unrecognized => exact Status.noConfusion

/-- Settles O40: by induction over the run. -/
theorem runsOfWellFormedInstructionsNeverFault : Obligations.RunsOfWellFormedInstructionsNeverFault := by
  intro s notFaulted wellFormed t reached
  exact (reached.induction (fun _ _ => not_faulted_of_step) ⟨wellFormed, notFaulted⟩).2

/-- NOP stands at `pc` where memory reads 0x00 (R44). -/
theorem step_of_zero_byte {s : State} (running : s.status = .running) (zero : s.readMem s.pc = 0x00#8) :
    step s = .next (s.advance 1) := by
  have bytes : BytesAt s s.pc (encode .nop) := bytesAt_cons.mpr ⟨zero, bytesAt_nil s _⟩
  rw [step_of_bytesAt running bytes, exec_nop]

/-- Settles O35: by induction on the number of zero bytes, each a NOP that moves `pc` to the next. -/
theorem zeroBytesRunAsNops : Obligations.ZeroBytesRunAsNops := by
  intro n
  induction n with
  | zero => intro s _ _; simp
  | succ n ih =>
    intro s running zeros
    have first : step s = .next (s.advance 1) := step_of_zero_byte running (by simpa using zeros 0 (Nat.succ_pos n))
    have others := ih (s.advance 1) running fun k hk => by
      simpa [add_one_add_ofNat] using zeros (k + 1) (Nat.succ_lt_succ hk)
    rw [run_succ_of_next first, others, State.advance_pc, add_one_add_ofNat]
    rfl

/-! ### Runs under a step budget (spec/60_exceptions.md R98) -/

/-- A stopped core is where its run ends, under every budget. -/
theorem runFor_of_stopped {s : State} (stopped : s.status ≠ .running) (n : Nat) : runFor n s = some s := by
  cases n with
  | zero => exact if_neg stopped
  | succ n => unfold runFor; split <;> simp_all

/-- A step of a running core uses one step of the budget. -/
theorem runFor_succ_of_next {s t : State} (next : step s = .next t) (n : Nat) : runFor (n + 1) s = runFor n t := by
  simp only [runFor, running_of_step next, next]

/-- What a run under a budget answers is stopped and reached by steps within the budget. -/
theorem run_of_runFor {n : Nat} {s t : State} (h : runFor n s = some t) :
    t.status ≠ .running ∧ ∃ m ≤ n, Sys2Proof.core.run m s = .next t := by
  induction n generalizing s with
  | zero =>
    obtain ⟨stopped, ended⟩ : s.status ≠ .running ∧ s = t := by simpa [runFor] using h
    exact ⟨ended ▸ stopped, 0, le_rfl, congrArg _ ended⟩
  | succ n ih =>
    by_cases running : s.status = .running
    · obtain ⟨u, next⟩ := runningCoreAlwaysSteps s running
      obtain ⟨stopped, m, within, run⟩ := ih ((runFor_succ_of_next next n).symm.trans h)
      exact ⟨stopped, m + 1, Nat.succ_le_succ within, (run_succ_of_next next m).trans run⟩
    · cases (runFor_of_stopped running (n + 1)).symm.trans h
      exact ⟨running, 0, Nat.zero_le _, rfl⟩

/-- A stopped state reached within a budget is what the run under that budget answers. -/
theorem runFor_of_run {m n : Nat} {s t : State} (stopped : t.status ≠ .running) (within : m ≤ n)
    (run : Sys2Proof.core.run m s = .next t) : runFor n s = some t := by
  induction m generalizing n s with
  | zero => cases run; exact runFor_of_stopped stopped n
  | succ m ih =>
    obtain ⟨k, rfl⟩ : ∃ k, n = k + 1 := ⟨n - 1, by omega⟩
    obtain ⟨u, next, rest⟩ := step_of_run_succ run
    exact (runFor_succ_of_next next k).trans (ih (Nat.le_of_succ_le_succ within) rest)

/-- A larger budget does not change the end of a run. -/
theorem runFor_add {n : Nat} {s t : State} (h : runFor n s = some t) (k : Nat) : runFor (n + k) s = some t := by
  obtain ⟨stopped, m, within, run⟩ := run_of_runFor h
  exact runFor_of_run stopped (within.trans (Nat.le_add_right n k)) run

/-- Settles O6: two ends of the run are both its end under the sum of the two budgets. -/
theorem runEndsOnlyWhenStopped : Obligations.RunEndsOnlyWhenStopped := by
  intro n s t h
  obtain ⟨stopped, reached⟩ := run_of_runFor h
  refine ⟨stopped, reached, runFor_add h, ?_⟩
  rintro u ⟨k, ends⟩
  have sum := runFor_add ends n
  rw [Nat.add_comm, runFor_add h k] at sum
  exact (Option.some.inj sum).symm

end Sys2Proof.Machine

/-! What a step keeps (spec/10_state.md sections 1 to 4, spec/20_memory.md section 1): which instruction can change a flag,
`sp`, a byte of memory, a register or `pc` otherwise than past itself. -/

namespace Sys2Proof.Machine

/-- Settles O41: no effect and no end of a run writes the parameters. -/
theorem stepKeepsTheParameters : Obligations.StepKeepsTheParameters := by
  intro s t h
  rcases effect_or_endRun_of_step h with ⟨i, -, -, effect⟩ | ⟨st, c, len, rfl⟩
  · cases effect with
    | wrote | recovered | passed | jumped | pushed | popped | stopped => rfl
  · rfl

/-! ### Flags -/

/-- An instruction that changes CARRY is an ADD or a SUB (R23). -/
theorem Effect.carry_changed {i : Instr} {s t : State} (effect : Effect i s t)
    (changed : flagBit .carry t.flags ≠ flagBit .carry s.flags) :
    (∃ ra rb, i = .add ra rb) ∨ ∃ ra rb, i = .sub ra rb := by
  cases effect with
  | wrote r v f _ _ flags =>
    obtain ⟨src, rfl | ⟨addOrSub, b, rfl⟩ | ⟨-, b, rfl⟩⟩ := flags
    · simp [flagBit_setZN] at changed
    · exact addOrSub
    · simp [flagBit_writeFlag, flagBit_setZN] at changed
  | recovered => simp [flagBit_writeFlag] at changed
  | popped => simp [flagBit_setZN] at changed
  | passed | jumped | pushed | stopped => exact absurd rfl changed

/-- An instruction that changes OVERFLOW is a MUL, or a DIV that sets it (R24). -/
theorem Effect.overflow_changed {i : Instr} {s t : State} (effect : Effect i s t)
    (changed : flagBit .overflow t.flags ≠ flagBit .overflow s.flags) :
    (∃ ra rb, i = .mul ra rb) ∨ (∃ ra rb, i = .div ra rb) ∧ flagBit .overflow t.flags = true := by
  cases effect with
  | wrote r v f _ _ flags =>
    obtain ⟨src, rfl | ⟨-, b, rfl⟩ | ⟨mul, b, rfl⟩⟩ := flags
    · simp [flagBit_setZN] at changed
    · simp [flagBit_writeFlag, flagBit_setZN] at changed
    · exact .inl mul
  | recovered div => exact .inr ⟨div, flagBit_writeFlag_self .overflow true s.flags⟩
  | popped => simp [flagBit_setZN] at changed
  | passed | jumped | pushed | stopped => exact absurd rfl changed

/-- An instruction that changes ZERO or NEGATIVE writes a register (R21). -/
theorem Effect.zn_changed {i : Instr} {s t : State} (effect : Effect i s t) {x : Flag} (hx : x = .zero ∨ x = .negative)
    (changed : flagBit x t.flags ≠ flagBit x s.flags) : ∃ d, destination i = some d := by
  cases effect with
  | wrote r v f written => exact written.imp fun _ => And.left
  | popped r pop => obtain ⟨ra, rfl, -⟩ := pop; exact ⟨ra, rfl⟩
  | recovered => rcases hx with rfl | rfl <;> simp [flagBit_writeFlag] at changed
  | passed | jumped | pushed | stopped => exact absurd rfl changed

/-- The opcodes of the instructions that write a register are those of R21's list. -/
theorem opcode_of_destination {i : Instr} {d : Byte} (h : destination i = some d) :
    ∃ op operands, encode i = op :: operands ∧
      op ∈ [0x14#8, 0x18#8, 0x20#8, 0x30#8, 0x40#8, 0x50#8, 0x60#8, 0x70#8, 0x80#8, 0x90#8, 0xA0#8, 0xC0#8] := by
  cases i with
  | nop | halt | push | jmp | jz | jnz => cases h
  | ldi | mv | add | sub | mul | div | and | or | xor | shl | shr | pop => exact ⟨_, _, rfl, by decide⟩

/-- Settles O42: CARRY is changed by an ADD or a SUB that is well-formed, so its operand bytes are in 0..7. -/
theorem onlyAddAndSubChangeCarry : Obligations.OnlyAddAndSubChangeCarry := by
  intro s t h changed
  rcases effect_or_endRun_of_step h with ⟨i, bytes, wf, effect⟩ | ⟨st, c, len, rfl⟩
  · have valid := (wellFormed_iff i).mp wf
    rcases effect.carry_changed changed with ⟨ra, rb, rfl⟩ | ⟨ra, rb, rfl⟩
    · obtain ⟨opcode, first, second⟩ := readMem_operands_of_bytesAt bytes
      exact ⟨.inl opcode, first ▸ valid ra (.head _), second ▸ valid rb (.tail _ (.head _))⟩
    · obtain ⟨opcode, first, second⟩ := readMem_operands_of_bytesAt bytes
      exact ⟨.inr opcode, first ▸ valid ra (.head _), second ▸ valid rb (.tail _ (.head _))⟩
  · exact absurd rfl changed

/-- Settles O43: a change of OVERFLOW is a MUL's, or a DIV's that leaves it set. -/
theorem overflowIsStickyUntilMul : Obligations.OverflowIsStickyUntilMul := by
  intro s t h
  rcases effect_or_endRun_of_step h with ⟨i, bytes, -, effect⟩ | ⟨st, c, len, rfl⟩
  · constructor <;> intro before after <;>
      rcases effect.overflow_changed (by simp [before, after]) with ⟨ra, rb, rfl⟩ | ⟨⟨ra, rb, rfl⟩, set⟩
    · exact .inl (readMem_of_bytesAt bytes)
    · exact .inr (readMem_of_bytesAt bytes)
    · exact readMem_of_bytesAt bytes
    · exact absurd (set.symm.trans after) (by decide)
  · exact ⟨fun clear set => absurd (clear.symm.trans set) (by decide),
      fun set clear => absurd (set.symm.trans clear) (by decide)⟩

/-- Settles O44: ZERO and NEGATIVE are changed by an instruction that writes a register. -/
theorem onlySetZnCallersChangeZeroAndNegative : Obligations.OnlySetZnCallersChangeZeroAndNegative := by
  intro s t x hx h changed
  rcases effect_or_endRun_of_step h with ⟨i, bytes, -, effect⟩ | ⟨st, c, len, rfl⟩
  · obtain ⟨d, written⟩ := effect.zn_changed hx changed
    obtain ⟨op, operands, encoding, listed⟩ := opcode_of_destination written
    rw [encoding] at bytes
    exact readMem_of_bytesAt bytes ▸ listed
  · exact absurd rfl changed

/-! ### `sp`, memory and registers -/

/-- Settles O45: PUSH and POP alone write `sp`. -/
theorem onlyPushAndPopMoveSp : Obligations.OnlyPushAndPopMoveSp := by
  intro s t h
  rcases effect_or_endRun_of_step h with ⟨i, bytes, -, effect⟩ | ⟨st, c, len, rfl⟩
  · cases effect with
    | pushed r push => obtain ⟨ra, rfl, -⟩ := push; exact .inr (.inl ⟨readMem_of_bytesAt bytes, rfl⟩)
    | popped r pop => obtain ⟨ra, rfl, -⟩ := pop; exact .inr (.inr ⟨readMem_of_bytesAt bytes, rfl⟩)
    | wrote | recovered | passed | jumped | stopped => exact .inl rfl
  · exact .inl rfl

/-- Settles O46: PUSH alone stores, one byte. -/
theorem onlyPushChangesMemory : Obligations.OnlyPushChangesMemory := by
  intro s t a h changed
  rcases effect_or_endRun_of_step h with ⟨i, bytes, -, effect⟩ | ⟨st, c, len, rfl⟩
  · cases effect with
    | pushed r push =>
      obtain ⟨ra, rfl, -⟩ := push
      refine ⟨readMem_of_bytesAt bytes, ?_⟩
      by_contra elsewhere
      exact changed (State.readMem_writeMem_ne (s.setSp (pushAddr s)) (s.reg r) elsewhere)
    | wrote | recovered | passed | jumped | popped | stopped => exact absurd rfl changed
  · exact absurd rfl changed

/-- An instruction that changes a register names it as its destination (R14). -/
theorem Effect.reg_changed {i : Instr} {s t : State} (effect : Effect i s t) {r : RegIdx} (changed : t.reg r ≠ s.reg r) :
    ∃ d, destination i = some d ∧ d.toNat = r.val := by
  cases effect with
  | wrote q v f written =>
    have same : r = q := by by_contra other; simp [other] at changed
    exact same ▸ written
  | popped q pop =>
    have same : r = q := by by_contra other; simp [other] at changed
    obtain ⟨ra, rfl, index⟩ := pop
    exact ⟨ra, rfl, same ▸ index⟩
  | recovered | passed | jumped | pushed | stopped => exact absurd rfl changed

/-- Settles O47: raising writes no register, and an effect writes the destination alone. -/
theorem onlyTheDestinationRegisterChanges : Obligations.OnlyTheDestinationRegisterChanges := by
  intro i s t r h changed
  rcases exec_next h with ⟨-, rfl⟩ | ⟨-, effect⟩
  · exact absurd rfl changed
  · obtain ⟨d, written, index⟩ := effect.reg_changed changed
    cases i with
    | ldi | mv | shl | shr | pop => cases written; exact index
    | add | sub | mul | div | and | or | xor => cases written; exact index.symm
    | nop | halt | push | jmp | jz | jnz => cases written

/-! ### `pc` -/

/-- A completed instruction moves `pc` past itself, unless it is a jump that is taken (R17). -/
theorem Effect.pc_cases {i : Instr} {s t : State} (effect : Effect i s t) :
    t.pc = s.pc + BitVec.ofNat 8 i.length ∨
      (∃ addr, i = .jmp addr ∧ t.pc = addr) ∨
      (∃ addr, i = .jz addr ∧ flagBit .zero s.flags = true ∧ t.pc = addr) ∨
      ∃ addr, i = .jnz addr ∧ flagBit .zero s.flags = false ∧ t.pc = addr := by
  cases effect with
  | wrote | recovered | passed | pushed | popped => exact .inl rfl
  | stopped halt => subst halt; exact .inl rfl
  | jumped addr taken =>
    rcases taken with jmp | ⟨jz, zero⟩ | ⟨jnz, zero⟩
    · exact .inr (.inl ⟨addr, jmp, rfl⟩)
    · exact .inr (.inr (.inl ⟨addr, jz, zero, rfl⟩))
    · exact .inr (.inr (.inr ⟨addr, jnz, zero, rfl⟩))

/-- Settles O34: the step runs the instruction, which raises and is passed, or has its effect. -/
theorem pcPassesTheInstruction : Obligations.PcPassesTheInstruction := by
  intro s t i bytes h
  rw [step_of_bytesAt (running_of_step h) bytes] at h
  rcases exec_next h with ⟨-, rfl⟩ | ⟨-, effect⟩
  · exact .inl rfl
  · exact effect.pc_cases

end Sys2Proof.Machine

/-! What the instructions that write a register share (spec/10_state.md R21 to R24): a write-back keeps everything but its
register, its flags and `pc`, and SetZN decides ZERO and NEGATIVE alone. -/

namespace Sys2Proof.Machine

theorem writeBack_keepsRegs (s : State) (r : RegIdx) (v f : Byte) (len : Nat) :
    KeepsRegsBut [r] s (s.writeBack r v f len) := fun q other => by
  rw [State.reg_writeBack, if_neg (List.ne_of_not_mem_cons other)]

theorem writeBack_keepsRest (s : State) (r : RegIdx) (v f : Byte) (len : Nat) : KeepsRest s (s.writeBack r v f len) :=
  ⟨rfl, fun _ => rfl, ⟨rfl, rfl, rfl⟩, rfl⟩

/-- A write-back leaves its value in its register. -/
theorem reg_writeBack_self (s : State) (r : RegIdx) (v f : Byte) (len : Nat) : (s.writeBack r v f len).reg r = v := by
  rw [State.reg_writeBack, if_pos rfl]

/-- The frame of a write-back that keeps all flags but those listed. -/
theorem writeBack_frame {s : State} {r : RegIdx} {v f : Byte} {len : Nat} {written : List Flag}
    (flags : KeepsFlagsBut written s (s.writeBack r v f len)) :
    KeepsFlagsBut written s (s.writeBack r v f len) ∧ KeepsRegsBut [r] s (s.writeBack r v f len) ∧
      (s.writeBack r v f len).pc = s.pc + BitVec.ofNat 8 len ∧ KeepsRest s (s.writeBack r v f len) :=
  ⟨flags, writeBack_keepsRegs s r v f len, State.writeBack_pc s r v f len, writeBack_keepsRest s r v f len⟩

/-- SetZN keeps every flag but ZERO and NEGATIVE, and bits 3:0 (R21). -/
theorem keepsFlagsBut_of_setZN {s t : State} {v : Byte} (h : t.flags = setZN v s.flags) :
    KeepsFlagsBut [.zero, .negative] s t := by
  unfold KeepsFlagsBut
  rw [h]
  refine ⟨fun x other => ?_, setZN_low v s.flags⟩
  cases x <;> simp [flagBit_setZN] at other ⊢

/-- SetZN and then one flag write keep every flag but those three, and bits 3:0. -/
theorem keepsFlagsBut_of_writeFlag_setZN {s t : State} {x : Flag} {b : Bool} {v : Byte}
    (h : t.flags = writeFlag x b (setZN v s.flags)) : KeepsFlagsBut [.zero, .negative, x] s t := by
  obtain ⟨flags, low⟩ := keepsFlagsBut_of_setZN (s := s) (t := s.setFlags (setZN v s.flags)) rfl
  unfold KeepsFlagsBut
  rw [h]
  refine ⟨fun y other => ?_, (writeFlag_low x b _).trans low⟩
  simp only [List.mem_cons, List.not_mem_nil, or_false, not_or] at other
  obtain ⟨notZero, notNegative, notX⟩ := other
  rw [flagBit_writeFlag_ne notX]
  exact flags y (by simp [notZero, notNegative])

/-- ZERO and NEGATIVE after SetZN (R21, property P2). -/
theorem znFrom_of_setZN {t : State} {v f : Byte} (h : t.flags = setZN v f) : ZnFrom v t := by
  unfold ZnFrom
  rw [h, flagBit_setZN, flagBit_setZN]
  exact ⟨rfl, msb_eq_bit7 v⟩

/-- A write of CARRY or OVERFLOW after SetZN keeps ZERO and NEGATIVE. -/
theorem znFrom_of_writeFlag_setZN {t : State} {x : Flag} {b : Bool} {v f : Byte}
    (h : t.flags = writeFlag x b (setZN v f)) (notZero : .zero ≠ x) (notNegative : .negative ≠ x) : ZnFrom v t := by
  unfold ZnFrom
  rw [h, flagBit_writeFlag_ne notZero, flagBit_writeFlag_ne notNegative]
  exact znFrom_of_setZN (t := t.setFlags (setZN v f)) rfl

/-- The byte `quirkSrc` hands to SetZN is the one of R22's cases. -/
theorem znFromFirstOperand_of_quirkSrc {s t : State} {ra a res : Byte} (ha : ra.toNat < 8)
    (zn : ZnFrom (quirkSrc s.params ⟨ra.toNat, ha⟩ a res) t) : ZnFromFirstOperand s ra a res t := by
  have isR0 : (⟨ra.toNat, ha⟩ : RegIdx) = 0 ↔ ra.toNat = 0 := Fin.ext_iff
  refine ⟨fun mode => ?_, fun mode first read => ?_, fun mode first read => ?_, fun mode other => ?_⟩
  · simpa [quirkSrc, mode] using zn
  · simpa [quirkSrc, mode, isR0, first, read] using zn
  · simpa [quirkSrc, mode, isR0, first, read] using zn
  · simpa [quirkSrc, mode, isR0, other] using zn

/-- Settles O50: each flag after SetZN. -/
theorem setZnWritesZeroAndNegative : Obligations.SetZnWritesZeroAndNegative := by
  intro v f
  refine ⟨?_, flagBit_setZN .negative v f, flagBit_setZN .carry v f, flagBit_setZN .overflow v f, setZN_low v f⟩
  rw [flagBit_setZN]
  exact decide_eq_true_iff

end Sys2Proof.Machine

/-! Moves (spec/41_move.md R65, R66). -/

namespace Sys2Proof.Machine

theorem exec_ldi_of_lt {reg : Byte} (h : reg.toNat < 8) (imm8 : Byte) (s : State) :
    exec (.ldi reg imm8) s = .next (s.writeBack ⟨reg.toNat, h⟩ imm8 (setZN imm8 s.flags) 3) :=
  withReg_of_lt h 3 s _

theorem exec_mv_of_lt {destReg srcReg : Byte} (hd : destReg.toNat < 8) (hs : srcReg.toNat < 8) (s : State) :
    exec (.mv destReg srcReg) s = .next (s.writeBack ⟨destReg.toNat, hd⟩ (s.reg ⟨srcReg.toNat, hs⟩)
      (setZN (moveSrc s.params srcReg (s.reg ⟨srcReg.toNat, hs⟩)) s.flags) 3) :=
  withRegs_of_lt hd hs 3 s _

/-- Settles O20: a write-back of the immediate with SetZN of it, or the raised fault. -/
theorem ldiMeetsItsRule : Obligations.LdiMeetsItsRule := by
  intro reg imm8 s
  refine ⟨rfl, fun h => ?_, fun invalid => ?_⟩
  · exact ⟨_, exec_ldi_of_lt h imm8 s, reg_writeBack_self .., znFrom_of_setZN rfl,
      writeBack_frame (keepsFlagsBut_of_setZN rfl)⟩
  · exact ⟨_, withReg_of_ge invalid 3 s _, (raise_raisedFrom 3 s).raisedInvalidRegister⟩

/-- Settles O21: a write-back of the source's value with SetZN of the byte that FLAG_MODE chooses, or the raised fault. -/
theorem mvMeetsItsRule : Obligations.MvMeetsItsRule := by
  intro destReg srcReg s
  refine ⟨rfl, fun hd hs => ?_, fun invalid => ?_⟩
  · refine ⟨_, exec_mv_of_lt hd hs s, reg_writeBack_self .., fun mode => znFrom_of_setZN (f := s.flags) ?_,
      fun mode => znFrom_of_setZN (f := s.flags) ?_, writeBack_frame (keepsFlagsBut_of_setZN rfl)⟩
    · rw [State.writeBack_flags, moveSrc_reference mode]
    · rw [State.writeBack_flags, moveSrc_corrected mode]
  · exact ⟨_, withRegs_of_ge invalid 3 s _, (raise_raisedFrom 3 s).raisedInvalidRegister⟩

end Sys2Proof.Machine

/-! Arithmetic (spec/42_arith.md R67 to R70): the numbers that the results are. -/

namespace Sys2Proof.Machine

theorem addResult_toNat (a b : Byte) : (addResult a b).toNat = (a.toNat + b.toNat) % 256 := BitVec.toNat_ofNat _ _

theorem mulResult_toNat (a b : Byte) : (mulResult a b).toNat = (a.toNat * b.toNat) % 256 := BitVec.toNat_ofNat _ _

theorem subResult_toNat (a b : Byte) : ((subResult a b).toNat : Int) = (a.toNat - b.toNat : Int) % 256 := by
  rw [subResult, BitVec.toNat_ofInt]
  exact Int.toNat_of_nonneg (Int.emod_nonneg _ (by decide))

/-- The quotient fits in a byte. -/
theorem divResult_toNat (a b : Byte) : (divResult a b).toNat = a.toNat / b.toNat := by
  rw [divResult, BitVec.toNat_ofNat]
  exact Nat.mod_eq_of_lt ((Nat.div_le_self _ _).trans_lt a.isLt)

theorem exec_add_of_lt {ra rb : Byte} (ha : ra.toNat < 8) (hb : rb.toNat < 8) (s : State) :
    exec (.add ra rb) s = .next (s.writeBack 0 (addResult (s.reg ⟨ra.toNat, ha⟩) (s.reg ⟨rb.toNat, hb⟩))
      (writeFlag .carry (addCarry (s.reg ⟨ra.toNat, ha⟩) (s.reg ⟨rb.toNat, hb⟩))
        (setZN (addResult (s.reg ⟨ra.toNat, ha⟩) (s.reg ⟨rb.toNat, hb⟩)) s.flags)) 3) :=
  withRegs_of_lt ha hb 3 s _

theorem exec_sub_of_lt {ra rb : Byte} (ha : ra.toNat < 8) (hb : rb.toNat < 8) (s : State) :
    exec (.sub ra rb) s = .next (s.writeBack 0 (subResult (s.reg ⟨ra.toNat, ha⟩) (s.reg ⟨rb.toNat, hb⟩))
      (writeFlag .carry (subBorrow (s.reg ⟨ra.toNat, ha⟩) (s.reg ⟨rb.toNat, hb⟩))
        (setZN (subResult (s.reg ⟨ra.toNat, ha⟩) (s.reg ⟨rb.toNat, hb⟩)) s.flags)) 3) :=
  withRegs_of_lt ha hb 3 s _

theorem exec_mul_of_lt {ra rb : Byte} (ha : ra.toNat < 8) (hb : rb.toNat < 8) (s : State) :
    exec (.mul ra rb) s = .next (s.writeBack 0 (mulResult (s.reg ⟨ra.toNat, ha⟩) (s.reg ⟨rb.toNat, hb⟩))
      (writeFlag .overflow (mulOverflow (s.reg ⟨ra.toNat, ha⟩) (s.reg ⟨rb.toNat, hb⟩))
        (setZN (quirkSrc s.params ⟨ra.toNat, ha⟩ (s.reg ⟨ra.toNat, ha⟩)
          (mulResult (s.reg ⟨ra.toNat, ha⟩) (s.reg ⟨rb.toNat, hb⟩))) s.flags)) 3) :=
  withRegs_of_lt ha hb 3 s _

/-- DIV by a divisor other than 0 (R70). -/
theorem exec_div_of_lt {ra rb : Byte} {s : State} (ha : ra.toNat < 8) (hb : rb.toNat < 8)
    (divisor : s.reg ⟨rb.toNat, hb⟩ ≠ 0) :
    exec (.div ra rb) s = .next (s.writeBack 0 (divResult (s.reg ⟨ra.toNat, ha⟩) (s.reg ⟨rb.toNat, hb⟩))
      (setZN (divResult (s.reg ⟨ra.toNat, ha⟩) (s.reg ⟨rb.toNat, hb⟩)) s.flags) 3) :=
  (withRegs_of_lt ha hb 3 s _).trans (congrArg _ (if_neg divisor))

/-- Settles O22: a write-back of the sum to R0 with SetZN of it and CARRY, or the raised fault. -/
theorem addMeetsItsRule : Obligations.AddMeetsItsRule := by
  intro ra rb s
  refine ⟨rfl, fun ha hb => ?_, fun invalid => ?_⟩
  · refine ⟨_, exec_add_of_lt ha hb s, ?_, ?_, ?_, writeBack_frame (keepsFlagsBut_of_writeFlag_setZN rfl)⟩
    · rw [reg_writeBack_self, addResult_toNat]
    · rw [reg_writeBack_self]
      exact znFrom_of_writeFlag_setZN rfl (by decide) (by decide)
    · rw [State.writeBack_flags, flagBit_writeFlag_self]
      exact decide_eq_true_iff
  · exact ⟨_, withRegs_of_ge invalid 3 s _, (raise_raisedFrom 3 s).raisedInvalidRegister⟩

/-- Settles O23: a write-back of the difference to R0 with SetZN of it and the borrow, or the raised fault. -/
theorem subMeetsItsRule : Obligations.SubMeetsItsRule := by
  intro ra rb s
  refine ⟨rfl, fun ha hb => ?_, fun invalid => ?_⟩
  · refine ⟨_, exec_sub_of_lt ha hb s, ?_, ?_, ?_, writeBack_frame (keepsFlagsBut_of_writeFlag_setZN rfl)⟩
    · rw [reg_writeBack_self, subResult_toNat]
    · rw [reg_writeBack_self]
      exact znFrom_of_writeFlag_setZN rfl (by decide) (by decide)
    · rw [State.writeBack_flags, flagBit_writeFlag_self]
      exact decide_eq_true_iff
  · exact ⟨_, withRegs_of_ge invalid 3 s _, raise_raisedFrom 3 s⟩

/-- Settles O24: a write-back of the product's low byte to R0 with SetZN of the byte that R22 chooses and OVERFLOW, or the
raised fault. -/
theorem mulMeetsItsRule : Obligations.MulMeetsItsRule := by
  intro ra rb s
  refine ⟨rfl, fun ha hb => ?_, fun invalid => ?_⟩
  · refine ⟨_, exec_mul_of_lt ha hb s, ?_, ?_, ?_, writeBack_frame (keepsFlagsBut_of_writeFlag_setZN rfl)⟩
    · rw [reg_writeBack_self, mulResult_toNat]
    · rw [reg_writeBack_self]
      exact znFromFirstOperand_of_quirkSrc ha (znFrom_of_writeFlag_setZN rfl (by decide) (by decide))
    · rw [State.writeBack_flags, flagBit_writeFlag_self]
      exact decide_eq_true_iff
  · exact ⟨_, withRegs_of_ge invalid 3 s _, (raise_raisedFrom 3 s).raisedInvalidRegister⟩

/-- Settles O25: a write-back of the quotient to R0 with SetZN of it, or the raised fault. -/
theorem divMeetsItsRule : Obligations.DivMeetsItsRule := by
  intro ra rb s
  refine ⟨rfl, fun ha hb divisor => ?_, fun invalid => ?_⟩
  · refine ⟨_, exec_div_of_lt ha hb divisor, ?_, ?_, writeBack_frame (keepsFlagsBut_of_setZN rfl)⟩
    · rw [reg_writeBack_self, divResult_toNat]
    · rw [reg_writeBack_self]
      exact znFrom_of_setZN rfl
  · exact ⟨_, withRegs_of_ge invalid 3 s _, raise_raisedFrom 3 s⟩

end Sys2Proof.Machine

/-! Logic and shifts (spec/43_logic_shift.md R72 to R76): one proof for the three bitwise functions and one for the two
shifts. -/

namespace Sys2Proof.Machine

theorem logicToR0_of_lt (f : Byte → Byte → Byte) {ra rb : Byte} (ha : ra.toNat < 8) (hb : rb.toNat < 8) (s : State) :
    logicToR0 f ra rb s = .next (s.writeBack 0 (f (s.reg ⟨ra.toNat, ha⟩) (s.reg ⟨rb.toNat, hb⟩))
      (setZN (quirkSrc s.params ⟨ra.toNat, ha⟩ (s.reg ⟨ra.toNat, ha⟩)
        (f (s.reg ⟨ra.toNat, ha⟩) (s.reg ⟨rb.toNat, hb⟩))) s.flags) 3) :=
  withRegs_of_lt ha hb 3 s _

/-- An instruction whose meaning is `logicToR0` of a bitwise function meets the rule of that function. -/
theorem logicMeetsItsRule {opcode : Byte} {i : Byte → Byte → Instr} {f : Byte → Byte → Byte}
    (row : ∀ ra rb, encode (i ra rb) = [opcode, ra, rb]) (meaning : ∀ ra rb s, exec (i ra rb) s = logicToR0 f ra rb s) :
    LogicMeetsItsRule opcode i f := by
  intro ra rb s
  rw [meaning]
  refine ⟨row ra rb, fun ha hb => ?_, fun invalid => ?_⟩
  · refine ⟨_, logicToR0_of_lt f ha hb s, reg_writeBack_self .., ?_, writeBack_frame (keepsFlagsBut_of_setZN rfl)⟩
    rw [reg_writeBack_self]
    exact znFromFirstOperand_of_quirkSrc ha (znFrom_of_setZN rfl)
  · exact ⟨_, withRegs_of_ge invalid 3 s _, (raise_raisedFrom 3 s).raisedInvalidRegister⟩

/-- Settles O27: the meanings of AND, OR and XOR are `logicToR0` of their functions. -/
theorem logicInstructionsMeetTheirRules : Obligations.LogicInstructionsMeetTheirRules :=
  ⟨logicMeetsItsRule (fun _ _ => rfl) fun _ _ _ => rfl, logicMeetsItsRule (fun _ _ => rfl) fun _ _ _ => rfl,
    logicMeetsItsRule (fun _ _ => rfl) fun _ _ _ => rfl⟩

/-- The meaning of an in-place shift whose result is `shifted`. -/
def shiftInPlace (shifted : Byte → Byte) (ra : Byte) (s : State) : Host.Outcome State Fault Refusal :=
  withReg 2 ra s fun r => s.writeBack r (shifted (s.reg r)) (setZN (shifted (s.reg r)) s.flags) 2

theorem exec_shl (ra : Byte) (s : State) : exec (.shl ra) s = shiftInPlace shlResult ra s := rfl

theorem exec_shr (ra : Byte) (s : State) : exec (.shr ra) s = shiftInPlace shrResult ra s := rfl

theorem shiftInPlace_of_lt (shifted : Byte → Byte) {ra : Byte} (h : ra.toNat < 8) (s : State) :
    shiftInPlace shifted ra s = .next (s.writeBack ⟨ra.toNat, h⟩ (shifted (s.reg ⟨ra.toNat, h⟩))
      (setZN (shifted (s.reg ⟨ra.toNat, h⟩)) s.flags) 2) :=
  withReg_of_lt h 2 s _

/-- An instruction whose meaning is `shiftInPlace` meets the rule of the function on numbers that its result is. -/
theorem shiftMeetsItsRule {opcode : Byte} {i : Byte → Instr} {f : Nat → Nat} {shifted : Byte → Byte}
    (row : ∀ ra, encode (i ra) = [opcode, ra]) (meaning : ∀ ra s, exec (i ra) s = shiftInPlace shifted ra s)
    (value : ∀ x, (shifted x).toNat = f x.toNat) : ShiftMeetsItsRule opcode i f := by
  intro ra s
  rw [meaning]
  refine ⟨row ra, fun h => ?_, fun invalid => ?_⟩
  · refine ⟨_, shiftInPlace_of_lt shifted h s, ?_, ?_, writeBack_frame (keepsFlagsBut_of_setZN rfl)⟩
    · rw [reg_writeBack_self, value]
    · rw [reg_writeBack_self]
      exact znFrom_of_setZN rfl
  · exact ⟨_, withReg_of_ge invalid 2 s _, raise_raisedFrom 2 s⟩

theorem shlResult_toNat (x : Byte) : (shlResult x).toNat = x.toNat * 2 % 256 := BitVec.toNat_ofNat _ _

/-- Half a byte fits in a byte. -/
theorem shrResult_toNat (x : Byte) : (shrResult x).toNat = x.toNat / 2 := by
  rw [shrResult, BitVec.toNat_ofNat]
  exact Nat.mod_eq_of_lt ((Nat.div_le_self _ _).trans_lt x.isLt)

/-- Half a byte is below 128. -/
theorem shrResult_msb (x : Byte) : (shrResult x).msb = false := by
  have bound := x.isLt
  rw [BitVec.msb_eq_false_iff_two_mul_lt, shrResult_toNat]
  omega

/-- Settles O28: both shifts are `shiftInPlace`, and the result of SHR has bit 7 clear. -/
theorem shiftsMeetTheirRules : Obligations.ShiftsMeetTheirRules := by
  refine ⟨shiftMeetsItsRule (fun _ => rfl) exec_shl shlResult_toNat,
    shiftMeetsItsRule (fun _ => rfl) exec_shr shrResult_toNat, fun ra s t h next => ?_⟩
  cases (shiftInPlace_of_lt shrResult h s).symm.trans next
  rw [State.writeBack_flags, flagBit_setZN]
  exact shrResult_msb _

end Sys2Proof.Machine

/-! The stack (spec/44_stack.md R77, R78): what PUSH and POP leave, said once, and the two one after the other. -/

namespace Sys2Proof.Machine

/-- `t` is `s` after a PUSH of the byte `v` (R77). -/
structure Pushed (v : Byte) (s t : State) : Prop where
  sp : t.sp = pushAddr s
  stored : s.mem.wf = true → t.readMem (pushAddr s) = v
  elsewhere : ∀ a, a ≠ pushAddr s → t.readMem a = s.readMem a
  regs : KeepsRegsBut [] s t
  flags : t.flags = s.flags
  pc : t.pc = s.pc + 2
  record : KeepsRecord s t
  params : t.params = s.params

/-- `t` is `s` after a POP into register `r` (R78). -/
structure Popped (r : RegIdx) (s t : State) : Prop where
  reg : t.reg r = s.readMem s.sp
  sp : t.sp = s.sp + 1
  zn : ZnFrom (s.readMem s.sp) t
  flags : KeepsFlagsBut [.zero, .negative] s t
  regs : KeepsRegsBut [r] s t
  pc : t.pc = s.pc + 2
  mem : KeepsMem s t
  record : KeepsRecord s t
  params : t.params = s.params

/-- PUSH of a valid register pushes its value. -/
theorem exec_push_of_lt {ra : Byte} (h : ra.toNat < 8) (s : State) :
    ∃ t, exec (.push ra) s = .next t ∧ Pushed (s.reg ⟨ra.toNat, h⟩) s t := by
  refine ⟨_, withReg_of_lt h 2 s _, ?_⟩
  exact
    { sp := rfl
      stored := fun wf => (State.readMem_writeMem (s := s.setSp (pushAddr s)) wf _ _ _).trans (if_pos rfl)
      elsewhere := fun a other => State.readMem_writeMem_ne (s.setSp (pushAddr s)) _ other
      regs := fun _ _ => rfl
      flags := rfl
      pc := rfl
      record := ⟨rfl, rfl, rfl⟩
      params := rfl }

/-- POP into a valid register pops the byte at `sp`. -/
theorem exec_pop_of_lt {ra : Byte} (h : ra.toNat < 8) (s : State) :
    ∃ t, exec (.pop ra) s = .next t ∧ Popped ⟨ra.toNat, h⟩ s t := by
  refine ⟨_, withReg_of_lt h 2 s _, ?_⟩
  exact
    { reg := reg_writeBack_self (s.setSp (s.sp + 1)) _ _ _ 2
      sp := rfl
      zn := znFrom_of_setZN rfl
      flags := keepsFlagsBut_of_setZN rfl
      regs := writeBack_keepsRegs (s.setSp (s.sp + 1)) _ _ _ 2
      pc := rfl
      mem := fun _ => rfl
      record := ⟨rfl, rfl, rfl⟩
      params := rfl }

/-- Settles O29: PUSH of a valid register leaves what `Pushed` says. -/
theorem pushMeetsItsRule : Obligations.PushMeetsItsRule := by
  intro ra s
  refine ⟨rfl, rfl, fun h => ?_, fun invalid => ?_⟩
  · obtain ⟨t, ran, push⟩ := exec_push_of_lt h s
    exact ⟨t, ran, push.sp, push.stored, push.elsewhere, push.regs, push.flags, push.pc, push.record, push.params⟩
  · exact ⟨_, withReg_of_ge invalid 2 s _, (raise_raisedFrom 2 s).raisedInvalidRegister⟩

/-! ### PUSH and then POP (property P3) -/

/-- Registers kept by a PUSH and all but one kept by a POP are kept but that one. -/
theorem Pushed.keepsRegs_popped {v : Byte} {r : RegIdx} {s t u : State} (push : Pushed v s t) (pop : Popped r t u) :
    KeepsRegsBut [r] s u :=
  fun q other => (pop.regs q other).trans (push.regs q List.not_mem_nil)

/-- POP after PUSH reads the pushed byte. -/
theorem Pushed.top {v : Byte} {s t : State} (push : Pushed v s t) (wf : s.mem.wf = true) : t.readMem t.sp = v :=
  push.sp ▸ push.stored wf

/-- POP after PUSH brings `sp` back. -/
theorem Pushed.sp_popped {v : Byte} {r : RegIdx} {s t u : State} (push : Pushed v s t) (pop : Popped r t u) :
    u.sp = s.sp := by
  rw [pop.sp, push.sp, pushAddr, BitVec.sub_add_cancel]

/-- Settles O30: POP into a valid register leaves what `Popped` says, and after a PUSH it pops the pushed byte. -/
theorem popMeetsItsRule : Obligations.PopMeetsItsRule := by
  intro ra s
  refine ⟨rfl, fun h => ?_, fun h rs hs wf => ?_, fun invalid => ?_⟩
  · obtain ⟨t, ran, pop⟩ := exec_pop_of_lt h s
    exact ⟨t, ran, pop.reg, pop.sp, pop.zn, pop.flags, pop.regs, pop.pc, pop.mem, pop.record, pop.params⟩
  · obtain ⟨p, pushes, push⟩ := exec_push_of_lt hs s
    obtain ⟨u, pops, pop⟩ := exec_pop_of_lt h p
    have top := push.top wf
    exact ⟨p, u, pushes, pops, pop.reg.trans top, push.keepsRegs_popped pop, push.sp_popped pop, top ▸ pop.zn⟩
  · exact ⟨_, withReg_of_ge invalid 2 s _, (raise_raisedFrom 2 s).raisedInvalidRegister⟩

/-- A step over PUSH of a valid register. -/
theorem step_push {ra : Byte} {s : State} (h : ra.toNat < 8) (running : s.status = .running)
    (bytes : BytesAt s s.pc [0xB0#8, ra]) : ∃ t, step s = .next t ∧ Pushed (s.reg ⟨ra.toNat, h⟩) s t :=
  step_of_bytesAt (i := .push ra) running bytes ▸ exec_push_of_lt h s

/-- A step over POP into a valid register. -/
theorem step_pop {ra : Byte} {s : State} (h : ra.toNat < 8) (running : s.status = .running)
    (bytes : BytesAt s s.pc [0xC0#8, ra]) : ∃ t, step s = .next t ∧ Popped ⟨ra.toNat, h⟩ s t :=
  step_of_bytesAt (i := .pop ra) running bytes ▸ exec_pop_of_lt h s

/-- After PUSH the core runs on. -/
theorem Pushed.running {v : Byte} {s t : State} (push : Pushed v s t) (running : s.status = .running) :
    t.status = .running := by
  obtain ⟨status, -⟩ := push.record
  exact status.trans running

/-- PUSH and POP in a row: two pairs of bytes, two addresses apart. -/
theorem bytesAt_two_pairs {s : State} {a b0 b1 b2 b3 : Byte} (bytes : BytesAt s a [b0, b1, b2, b3]) :
    BytesAt s a [b0, b1] ∧ s.readMem (a + 2) = b2 ∧ s.readMem (a + 3) = b3 := by
  have sum2 : a + 1 + 1 = a + 2 := by rw [BitVec.add_assoc]; rfl
  have sum3 : a + 2 + 1 = a + 3 := by rw [BitVec.add_assoc]; rfl
  simp only [bytesAt_cons, sum2, sum3] at bytes ⊢
  obtain ⟨first, second, third, fourth, none⟩ := bytes
  exact ⟨⟨first, second, bytesAt_nil s _⟩, third, fourth⟩

/-- Two bytes that read at an address and the next stand there. -/
theorem bytesAt_pair {s : State} {a b c : Byte} (first : s.readMem a = b) (second : s.readMem (a + 1) = c) :
    BytesAt s a [b, c] :=
  bytesAt_cons.mpr ⟨first, bytesAt_cons.mpr ⟨second, bytesAt_nil s _⟩⟩

/-- Settles O31: the store misses the POP's bytes, so the second step runs it, and it pops the pushed byte. -/
theorem pushThenPopMovesTheRegister : Obligations.PushThenPopMovesTheRegister := by
  intro rs rd s hs hd running wf bytes missesOpcode missesOperand
  obtain ⟨pushBytes, popOpcode, popOperand⟩ := bytesAt_two_pairs bytes
  obtain ⟨t, pushes, push⟩ := step_push hs running pushBytes
  have popBytes : BytesAt t t.pc [0xC0#8, rd] := by
    have past : s.pc + 2 + 1 = s.pc + 3 := by rw [BitVec.add_assoc]; rfl
    rw [push.pc]
    refine bytesAt_pair ((push.elsewhere _ missesOpcode.symm).trans popOpcode) ?_
    rw [past]
    exact (push.elsewhere _ missesOperand.symm).trans popOperand
  obtain ⟨u, pops, pop⟩ := step_pop hd (push.running running) popBytes
  have top := push.top wf
  have flags : KeepsFlagsBut [.zero, .negative] s u := by
    have kept := pop.flags
    unfold KeepsFlagsBut at kept ⊢
    rwa [push.flags] at kept
  have pc : u.pc = s.pc + 4 := by rw [pop.pc, push.pc, BitVec.add_assoc]; rfl
  have record : KeepsRecord s u := by
    obtain ⟨status, cause, causePc⟩ := push.record
    obtain ⟨status', cause', causePc'⟩ := pop.record
    exact ⟨status'.trans status, cause'.trans cause, causePc'.trans causePc⟩
  exact ⟨t, u, pushes, pops, pop.reg.trans top, push.keepsRegs_popped pop, push.sp_popped pop, top ▸ pop.zn, flags, pc,
    fun a other => (pop.mem a).trans (push.elsewhere a other), (pop.mem _).trans (push.stored wf), record,
    pop.params.trans push.params⟩

/-- Settles O32: the pushed byte stands at the new `pc`, so the second step runs HALT there. -/
theorem pushedOpcodeIsFetchedNext : Obligations.PushedOpcodeIsFetchedNext := by
  intro ra s h running wf bytes next haltByte
  obtain ⟨t, pushes, push⟩ := step_push h running bytes
  have haltBytes : BytesAt t t.pc (encode .halt) := by
    have stored : t.readMem (s.sp - 1) = s.reg ⟨ra.toNat, h⟩ := push.stored wf
    refine bytesAt_cons.mpr ⟨?_, bytesAt_nil t _⟩
    rw [push.pc, ← next, stored, haltByte]
  have halts : step t = .next (t.stop .haltOpcode) := step_of_bytesAt (push.running running) haltBytes
  have pc : t.pc + 1 = s.pc + 3 := by rw [push.pc, BitVec.add_assoc]; rfl
  exact ⟨t, _, pushes, halts, rfl, rfl, push.pc, pc⟩

end Sys2Proof.Machine

/-! Memory as data (spec/20_memory.md sections 1 and 2): a store reads back, and the canonical form has one list for each
contents. -/

namespace Sys2Proof.Machine

/-- Settles O51: `writeMem` keeps the form, and a read after it is the stored byte or the byte before. -/
theorem storeThenReadGivesTheByte : Obligations.StoreThenReadGivesTheByte := by
  intro s a v wf
  exact ⟨State.writeMem_wf wf a v, (State.readMem_writeMem wf a a v).trans (if_pos rfl),
    fun b other => State.readMem_writeMem_ne s v other⟩

/-- The first cell of a canonical list reads a byte that no unlisted address reads. -/
theorem Memory.get_head_ne {lo k : Nat} {w : Byte} {m : Memory} (wf : Memory.wfFrom lo ((k, w) :: m) = true) :
    Memory.get ((k, w) :: m) k ≠ unlistedByte := by
  obtain ⟨-, -, listed, -⟩ := Memory.wfFrom_cons.mp wf
  simpa [Memory.get] using listed

/-- A canonical list that reads as another with first cell `k` has no cell below `k`. -/
theorem Memory.head_le_of_get_eq {lo lo' j k : Nat} {v w : Byte} {m n : Memory}
    (wfm : Memory.wfFrom lo ((j, v) :: m) = true) (wfn : Memory.wfFrom lo' ((k, w) :: n) = true)
    (alike : ∀ a < Config.memSize, Memory.get ((j, v) :: m) a = Memory.get ((k, w) :: n) a) : k ≤ j := by
  obtain ⟨-, small, -⟩ := Memory.wfFrom_cons.mp wfm
  obtain ⟨-, inside, listed, rest⟩ := Memory.wfFrom_cons.mp wfn
  by_contra above
  have fromK : Memory.wfFrom k ((k, w) :: n) = true := Memory.wfFrom_cons.mpr ⟨le_rfl, inside, listed, rest⟩
  exact Memory.get_head_ne wfm ((alike j small).trans (Memory.get_below fromK (by omega)))

/-- The cells after the first read alike when the whole lists do: no later cell is at or below the first. -/
theorem Memory.get_tail_eq {lo lo' k : Nat} {v w : Byte} {m n : Memory} (wfm : Memory.wfFrom lo ((k, v) :: m) = true)
    (wfn : Memory.wfFrom lo' ((k, w) :: n) = true) {a : Nat}
    (alike : Memory.get ((k, v) :: m) a = Memory.get ((k, w) :: n) a) : Memory.get m a = Memory.get n a := by
  obtain ⟨-, -, -, restm⟩ := Memory.wfFrom_cons.mp wfm
  obtain ⟨-, -, -, restn⟩ := Memory.wfFrom_cons.mp wfn
  by_cases first : a = k
  · rw [Memory.get_below restm (by omega), Memory.get_below restn (by omega)]
  · simpa [Memory.get, first] using alike

/-- Canonical lists that read alike in the address space are equal: by induction on both, first cell against first cell. -/
theorem Memory.eq_of_get_eq {lo lo' : Nat} {m n : Memory} (wfm : m.wfFrom lo = true) (wfn : n.wfFrom lo' = true)
    (alike : ∀ a < Config.memSize, m.get a = n.get a) : m = n := by
  induction m generalizing n lo lo' with
  | nil =>
    cases n with
    | nil => rfl
    | cons d n =>
      obtain ⟨-, small, -⟩ := Memory.wfFrom_cons.mp wfn
      exact absurd (alike d.1 small).symm (Memory.get_head_ne wfn)
  | cons c m ih =>
    obtain ⟨j, v⟩ := c
    obtain ⟨-, small, -, restm⟩ := Memory.wfFrom_cons.mp wfm
    cases n with
    | nil => exact absurd (alike j small) (Memory.get_head_ne wfm)
    | cons d n =>
      obtain ⟨k, w⟩ := d
      obtain ⟨-, -, -, restn⟩ := Memory.wfFrom_cons.mp wfn
      have sameAddress : j = k := le_antisymm
        (Memory.head_le_of_get_eq wfn wfm fun a ha => (alike a ha).symm) (Memory.head_le_of_get_eq wfm wfn alike)
      subst sameAddress
      have sameByte : v = w := by simpa [Memory.get] using alike j small
      subst sameByte
      rw [ih restm restn fun a ha => Memory.get_tail_eq wfm wfn (alike a ha)]

/-- Settles O52: every address of the space is a byte. -/
theorem equalReadsMeanEqualMemory : Obligations.EqualReadsMeanEqualMemory := by
  intro s t wfs wft alike
  refine Memory.eq_of_get_eq wfs wft fun a ha => ?_
  have isByte : (BitVec.ofNat 8 a).toNat = a := (BitVec.toNat_ofNat a 8).trans (Nat.mod_eq_of_lt ha)
  have read := alike (BitVec.ofNat 8 a)
  rwa [State.readMem, State.readMem, isByte] at read

end Sys2Proof.Machine

/-! Reset, load and the observation port (spec/70_reset_and_hazards.md R99 to R101, spec/10_state.md R29). -/

namespace Sys2Proof.Machine

/-- A reset machine meets the invariant, whatever its parameters. -/
theorem resetWith_inv (p : Params) : MachineInv (State.resetWith p) := by
  have low : (State.resetWith p).flags &&& 0x0F#8 = 0 := by rw [State.resetWith_flags]; decide
  exact ⟨Memory.wf_nil, low, rfl⟩

/-- Settles O2: power-on and the host's reset are both `resetWith`. -/
theorem resetMeetsTheInvariant : Obligations.ResetMeetsTheInvariant :=
  ⟨resetWith_inv Params.spec, fun s => resetWith_inv s.params⟩

/-- A load keeps the invariant. -/
theorem writeBytes_inv {s : State} (inv : MachineInv s) (a : Byte) (bytes : List Byte) :
    MachineInv (s.writeBytes a bytes) := by
  obtain ⟨mem, low, record⟩ := inv
  refine ⟨State.writeBytes_wf mem a bytes, ?_, ?_⟩
  · rwa [State.writeBytes_flags]
  · rwa [State.writeBytes_status, State.writeBytes_cause]

/-- A load writes no register. -/
theorem writeBytes_reg (s : State) (a : Byte) (bytes : List Byte) (r : RegIdx) :
    (s.writeBytes a bytes).reg r = s.reg r := by
  rw [State.reg, State.reg, State.writeBytes_regs]

/-- Memory after reset and load: the image from address 0 on, then zeros. -/
theorem readMem_loaded (p : Params) {image : List Byte} (fits : image.length ≤ Config.memSize) (a : Byte) :
    ((State.resetWith p).writeBytes Config.loadBase image).readMem a =
      if h : a.toNat < image.length then image[a.toNat] else 0x00#8 := by
  have base : a - Config.loadBase = a := BitVec.sub_zero a
  rw [State.readMem_writeBytes image _ _ Memory.wf_nil fits]
  simp only [base, State.resetWith_readMem]

/-- Settles O3: a load writes memory alone, and the bytes it leaves are the image and zeros. -/
theorem bootLoadsTheImage : Obligations.BootLoadsTheImage := by
  intro p image
  refine ⟨fun fits => ⟨_, if_pos fits, fun k inside => ?_, fun a outside => ?_, fun r => ?_, ?_⟩, fun long => ?_⟩
  · have isByte : (BitVec.ofNat 8 k).toNat = k := (BitVec.toNat_ofNat k 8).trans (Nat.mod_eq_of_lt (by omega))
    rw [readMem_loaded p fits]
    simp [isByte, inside]
  · rw [readMem_loaded p fits, dif_neg (by omega)]
  · rw [writeBytes_reg, State.resetWith_reg]
  · exact ⟨State.writeBytes_pc .., State.writeBytes_sp .., State.writeBytes_flags .., State.writeBytes_status ..,
      congrArg Cause.code (State.writeBytes_cause ..), State.writeBytes_params .., writeBytes_inv (resetWith_inv p) _ _⟩
  · exact if_neg (Nat.not_le_of_lt long)

/-- Settles O4: byte `a` of the 256 shown is the byte at address `a`. -/
theorem observationShowsTheState : Obligations.ObservationShowsTheState := by
  intro s
  refine ⟨rfl, rfl, rfl, rfl, rfl, rfl, fun stopped => if_neg stopped, fun running => if_pos running, ?_, fun a => ?_⟩
  · simp [observe]
  · have inside : a.toNat < 256 := a.isLt
    simp [observe, inside]

end Sys2Proof.Machine

/-! Two runs of one instruction (spec/10_state.md R25, spec/00_scope.md R7, 93_implementation_defined.md I13): from states
that differ in one field, the same register operands raise or complete alike. -/

namespace Sys2Proof.Machine

/-- Both outcomes are next states, and these are related. -/
def NextRelated (R : State → State → Prop) (o p : Host.Outcome State Fault Refusal) : Prop :=
  ∃ t u, o = .next t ∧ p = .next u ∧ R t u

theorem NextRelated.intro {R : State → State → Prop} {t u : State} (h : R t u) : NextRelated R (.next t) (.next u) :=
  ⟨t, u, rfl, rfl, h⟩

/-- One register operand raises in both runs or completes in both. -/
theorem withReg_related {R : State → State → Prop} {len : Nat} {b : Byte} {s s' : State} {k k' : RegIdx → State}
    (raised : R (s.raiseInvalidRegisterIndex len) (s'.raiseInvalidRegisterIndex len)) (completed : ∀ r, R (k r) (k' r)) :
    NextRelated R (withReg len b s k) (withReg len b s' k') := by
  rcases Nat.lt_or_ge b.toNat 8 with valid | invalid
  · rw [withReg_of_lt valid, withReg_of_lt valid]
    exact .intro (completed _)
  · rw [withReg_of_ge invalid, withReg_of_ge invalid]
    exact .intro raised

/-- Two register operands raise in both runs or complete in both. -/
theorem withRegs_related {R : State → State → Prop} {len : Nat} {a b : Byte} {s s' : State}
    {k k' : RegIdx → RegIdx → State}
    (raised : R (s.raiseInvalidRegisterIndex len) (s'.raiseInvalidRegisterIndex len))
    (completed : ∀ i j, R (k i j) (k' i j)) : NextRelated R (withRegs len a b s k) (withRegs len a b s' k') := by
  rcases withRegs_cases len a b s k with ⟨ha, hb, ran⟩ | ⟨invalid, ran⟩
  · rw [ran, withRegs_of_lt ha hb]
    exact .intro (completed _ _)
  · rw [ran, withRegs_of_ge invalid]
    exact .intro raised

/-! ### The flags that are not read -/

/-- Each flag of `g` and `g'` is the same in both or is that of `f` and of `f'`. -/
def AlikeOrCarried (f f' g g' : Byte) : Prop :=
  ∀ x, flagBit x g' = flagBit x g ∨ (flagBit x g' = flagBit x f' ∧ flagBit x g = flagBit x f)

theorem AlikeOrCarried.carried (f f' : Byte) : AlikeOrCarried f f' f f' := fun _ => .inr ⟨rfl, rfl⟩

/-- Writing one flag alike. -/
theorem AlikeOrCarried.writeFlag {f f' g g' : Byte} (h : AlikeOrCarried f f' g g') (x : Flag) (b : Bool) :
    AlikeOrCarried f f' (writeFlag x b g) (writeFlag x b g') := fun y => by
  by_cases written : y = x
  · exact .inl (by rw [written, flagBit_writeFlag_self, flagBit_writeFlag_self])
  · rw [flagBit_writeFlag_ne written, flagBit_writeFlag_ne written]
    exact h y

/-- SetZN of the same byte writes ZERO and NEGATIVE alike. -/
theorem AlikeOrCarried.setZN {f f' g g' : Byte} (h : AlikeOrCarried f f' g g') (v : Byte) :
    AlikeOrCarried f f' (setZN v g) (setZN v g') :=
  (h.writeFlag .zero _).writeFlag .negative _

/-- The next states differ in flags alone, and there only as `AlikeOrCarried` says. -/
def FlagsApart (f f' : Byte) (t u : State) : Prop := u = t.setFlags u.flags ∧ AlikeOrCarried f f' t.flags u.flags

/-- Two runs from states that differ in flags but not in ZERO: the jumps read ZERO alone, DIV compares a register, and
every other flag is written from registers and memory or carried. -/
theorem exec_flagsApart (i : Instr) (s : State) (f : Byte) (sameZero : flagBit .zero f = flagBit .zero s.flags) :
    NextRelated (FlagsApart s.flags f) (exec i s) (exec i (s.setFlags f)) := by
  have carried := AlikeOrCarried.carried s.flags f
  cases i with
  | nop | halt | jmp => exact .intro ⟨rfl, carried⟩
  | jz addr => rw [exec_jz, exec_jz, State.setFlags_flags, sameZero]; exact .intro ⟨rfl, carried⟩
  | jnz addr => rw [exec_jnz, exec_jnz, State.setFlags_flags, sameZero]; exact .intro ⟨rfl, carried⟩
  | push => exact withReg_related ⟨rfl, carried⟩ fun _ => ⟨rfl, carried⟩
  | ldi | shl | shr | pop => exact withReg_related ⟨rfl, carried⟩ fun _ => ⟨rfl, carried.setZN _⟩
  | mv | and | or | xor => exact withRegs_related ⟨rfl, carried⟩ fun _ _ => ⟨rfl, carried.setZN _⟩
  | add | sub | mul =>
    exact withRegs_related ⟨rfl, carried⟩ fun _ _ => ⟨rfl, (carried.setZN _).writeFlag _ _⟩
  | div =>
    refine withRegs_related ⟨rfl, carried⟩ fun a b => ?_
    rw [State.setFlags_reg]
    split
    · exact ⟨rfl, carried.writeFlag .overflow true⟩
    · exact ⟨rfl, carried.setZN _⟩

/-- Settles O48: what two runs of one instruction from other flags lead to. -/
theorem onlyZeroIsRead : Obligations.OnlyZeroIsRead := by
  intro i s f sameZero
  obtain ⟨t, u, ran, ran', apart, flags⟩ := exec_flagsApart i s f sameZero
  exact ⟨t, u, ran, ran', apart, flags⟩

/-! ### The parameters -/

/-- The opcodes of the instructions whose flag source depends on the parameters: MV, MUL, AND, OR and XOR (R22, R66). -/
def ReadsParams (i : Instr) : Prop := (encode i).head? ∈ [some 0x18#8, some 0x40#8, some 0x60#8, some 0x70#8, some 0x80#8]

/-- The next states differ in the parameters and, after an instruction that reads them, in ZERO and NEGATIVE. -/
def ParamsApart (i : Instr) (p : Params) (t u : State) : Prop :=
  u = { t with params := p, flags := u.flags } ∧ KeepsFlagsBut [.zero, .negative] t u ∧
    (u.flags ≠ t.flags → ReadsParams i)

/-- Next states that differ in the parameters alone. -/
theorem ParamsApart.same {i : Instr} {p : Params} {t u : State} (h : u = { t with params := p }) :
    ParamsApart i p t u := by
  subst h
  exact ⟨rfl, ⟨fun _ _ => rfl, rfl⟩, fun differ => absurd rfl differ⟩

/-- Two flags bytes that SetZN leaves, of any two bytes, differ in ZERO and NEGATIVE alone. -/
theorem keepsFlagsBut_of_setZN_setZN {t u : State} {v v' f : Byte} (ht : t.flags = setZN v f)
    (hu : u.flags = setZN v' f) : KeepsFlagsBut [.zero, .negative] t u := by
  unfold KeepsFlagsBut
  rw [ht, hu]
  refine ⟨fun x other => ?_, (setZN_low v' f).trans (setZN_low v f).symm⟩
  cases x <;> simp [flagBit_setZN] at other ⊢

/-- Writing one flag alike in two flags bytes keeps what they share. -/
theorem KeepsFlagsBut.writeFlag {written : List Flag} {t u t' u' : State} {x : Flag} {b : Bool}
    (h : KeepsFlagsBut written t u) (ht : t'.flags = writeFlag x b t.flags) (hu : u'.flags = writeFlag x b u.flags) :
    KeepsFlagsBut written t' u' := by
  obtain ⟨flags, low⟩ := h
  unfold KeepsFlagsBut
  rw [ht, hu]
  refine ⟨fun y other => ?_, (writeFlag_low x b _).trans (low.trans (writeFlag_low x b _).symm)⟩
  rw [flagBit_writeFlag, flagBit_writeFlag, flags y other]

/-- Two runs from states that differ in the parameters: `quirkSrc` and `moveSrc` alone read them, and hand a byte to
SetZN. -/
theorem exec_paramsApart (i : Instr) (s : State) (p : Params) :
    NextRelated (ParamsApart i p) (exec i s) (exec i { s with params := p }) := by
  cases i with
  | nop | halt | jmp => exact .intro (.same rfl)
  | jz addr => rw [exec_jz, exec_jz]; exact .intro (.same rfl)
  | jnz addr => rw [exec_jnz, exec_jnz]; exact .intro (.same rfl)
  | push | ldi | shl | shr | pop => exact withReg_related (.same rfl) fun _ => .same rfl
  | add | sub => exact withRegs_related (.same rfl) fun _ _ => .same rfl
  | div =>
    refine withRegs_related (.same rfl) fun a b => ?_
    have sameReg : ({ s with params := p } : State).reg b = s.reg b := rfl
    rw [sameReg]
    split <;> exact .same rfl
  | mv | and | or | xor =>
    exact withRegs_related (.same rfl) fun _ _ =>
      ⟨rfl, keepsFlagsBut_of_setZN_setZN (f := s.flags) rfl rfl, fun _ => by simp [ReadsParams, encode]⟩
  | mul =>
    refine withRegs_related (.same rfl) fun a b => ⟨rfl, ?_, fun _ => by simp [ReadsParams, encode]⟩
    have setZNs := fun v v' : Byte => keepsFlagsBut_of_setZN_setZN (t := s.setFlags (setZN v s.flags))
      (u := s.setFlags (setZN v' s.flags)) (f := s.flags) rfl rfl
    exact (setZNs _ _).writeFlag rfl rfl

/-- Settles O49: what two runs of one instruction under other parameters lead to. -/
theorem parametersDecideOnlyQuirkFlags : Obligations.ParametersDecideOnlyQuirkFlags := by
  intro i s p
  obtain ⟨t, u, ran, ran', apart, flags, quirk⟩ := exec_paramsApart i s p
  exact ⟨t, u, ran, ran', apart, flags, quirk⟩

/-! ### `cause_pc` of a running core -/

/-- The next states are the same, but for another `cause_pc` while RUNNING. -/
def CausePcApart (c : Byte) (t u : State) : Prop :=
  (t.status = .running → u = { t with causePc := c }) ∧ (t.status ≠ .running → u = t)

/-- A core that goes on carries the other `cause_pc` along. -/
theorem CausePcApart.goesOn {c : Byte} {t u : State} (running : t.status = .running) (h : u = { t with causePc := c }) :
    CausePcApart c t u := ⟨fun _ => h, fun stopped => absurd running stopped⟩

/-- A core that stops writes `cause_pc`. -/
theorem CausePcApart.stops {c : Byte} {t u : State} (stopped : t.status ≠ .running) (h : u = t) : CausePcApart c t u :=
  ⟨fun running => absurd running stopped, fun _ => h⟩

/-- The end of a run overwrites `cause_pc`. -/
theorem endRun_causePcApart {st : Status} (stopped : st ≠ .running) (s : State) (c : Byte) (cause : Cause) (len : Nat) :
    CausePcApart c (s.endRun st cause len) (State.endRun st cause len { s with causePc := c }) := .stops stopped rfl

/-- Two runs of one instruction from RUNNING states that differ in `cause_pc`: no meaning reads it. -/
theorem exec_causePcApart (i : Instr) {s : State} (running : s.status = .running) (c : Byte) :
    NextRelated (CausePcApart c) (exec i s) (exec i { s with causePc := c }) := by
  have raised : ∀ len, CausePcApart c (s.raiseInvalidRegisterIndex len)
    (State.raiseInvalidRegisterIndex len { s with causePc := c }) := endRun_causePcApart (by decide) s c _
  cases i with
  | nop | jmp => exact .intro (.goesOn running rfl)
  | halt => exact .intro (endRun_causePcApart (by decide) s c _ 1)
  | jz addr => rw [exec_jz, exec_jz]; exact .intro (.goesOn running rfl)
  | jnz addr => rw [exec_jnz, exec_jnz]; exact .intro (.goesOn running rfl)
  | push | ldi | shl | shr | pop => exact withReg_related (raised _) fun _ => .goesOn running rfl
  | add | sub | mul | mv | and | or | xor => exact withRegs_related (raised _) fun _ _ => .goesOn running rfl
  | div =>
    refine withRegs_related (raised _) fun a b => ?_
    have sameReg : ({ s with causePc := c } : State).reg b = s.reg b := rfl
    rw [sameReg]
    split <;> exact .goesOn running rfl

/-- Two steps from RUNNING states that differ in `cause_pc`: the same bytes are fetched. -/
theorem step_causePcApart {s : State} (running : s.status = .running) (c : Byte) :
    NextRelated (CausePcApart c) (step s) (step { s with causePc := c }) := by
  have sameBytes : ({ s with causePc := c } : State).instrBytes = s.instrBytes := rfl
  rw [step_running running, step_running (s := { s with causePc := c }) running, sameBytes]
  cases decode s.instrBytes with
  | instr i => exact exec_causePcApart i running c
  | rejected why => exact .intro (endRun_causePcApart (by decide) s c _ 1)

/-- The host is shown no `cause_pc` while RUNNING, and the same one once the core is stopped. -/
theorem CausePcApart.observe_eq {c : Byte} {t u : State} (h : CausePcApart c t u) : observe u = observe t := by
  obtain ⟨goesOn, stops⟩ := h
  by_cases running : t.status = .running
  · rw [goesOn running]
    simp [observe, running, State.readMem]
  · rw [stops running]

/-- A run answers a state or a fault. -/
theorem run_next_or_fault (n : Nat) (s : State) :
    (∃ t, Sys2Proof.core.run n s = .next t) ∨ ∃ r, Sys2Proof.core.run n s = .fault r := by
  induction n generalizing s with
  | zero => exact .inl ⟨s, rfl⟩
  | succ n ih =>
    rcases step_next_or_fault s with ⟨t, next⟩ | ⟨r, fault⟩
    · rw [run_succ_of_next next]; exact ih t
    · exact .inr ⟨r, run_succ_of_fault fault n⟩

/-- Runs from RUNNING states that differ in `cause_pc`: alike as long as the core goes on, the same once it stops. -/
theorem run_causePcApart (n : Nat) {s : State} (running : s.status = .running) (c : Byte) :
    (∃ t u, Sys2Proof.core.run n s = .next t ∧ Sys2Proof.core.run n { s with causePc := c } = .next u ∧
      observe u = observe t) ∨
    ∃ r, Sys2Proof.core.run n s = .fault r ∧ Sys2Proof.core.run n { s with causePc := c } = .fault r := by
  induction n generalizing s with
  | zero => exact .inl ⟨s, _, rfl, rfl, (CausePcApart.goesOn (c := c) running rfl).observe_eq⟩
  | succ n ih =>
    obtain ⟨t, u, next, next', apart⟩ := step_causePcApart running c
    obtain ⟨goesOn, stops⟩ := apart
    rw [run_succ_of_next next, run_succ_of_next next']
    by_cases goes : t.status = .running
    · rw [goesOn goes]
      exact ih goes
    · rw [stops goes]
      rcases run_next_or_fault n t with ⟨v, run⟩ | ⟨r, run⟩
      · exact .inl ⟨v, v, run, run, rfl⟩
      · exact .inr ⟨r, run, run⟩

/-- Settles O5: what the port shows of two states apart in `cause_pc` is the same, before, after a step and after a run. -/
theorem causePcWhileRunningIsNeverSeen : Obligations.CausePcWhileRunningIsNeverSeen := by
  intro s c running
  obtain ⟨t, u, next, next', apart⟩ := step_causePcApart running c
  obtain ⟨goesOn, stops⟩ := apart
  exact ⟨(CausePcApart.goesOn (c := c) running rfl).observe_eq,
    ⟨t, u, next, next', CausePcApart.observe_eq ⟨goesOn, stops⟩, goesOn, stops⟩,
    fun n => run_causePcApart n running c⟩

end Sys2Proof.Machine
